-- ==== Sys2Proof/Word.lean ====
section
/-! DEFINITION. The word types of the frame codec (rule R9): `uN` is an unsigned integer of N bits,
bit 0 its least significant bit; a byte is a `u8` and a byte sequence is a finite list of bytes,
index 0 first (rule R10). -/

namespace Sys2Proof

/-- A one-bit unsigned value (the header's reserved bit, rule R27). -/
abbrev U1 := BitVec 1
/-- A two-bit unsigned value (the 2-bit CtrlStatus fields, rule R32). -/
abbrev U2 := BitVec 2
/-- A three-bit unsigned value (the LRCM's reserved field, rule R28). -/
abbrev U3 := BitVec 3
/-- A four-bit unsigned value (the header's type tag, rule R27). -/
abbrev U4 := BitVec 4
/-- A byte (rule R10). -/
abbrev U8 := BitVec 8
/-- An 11-bit unsigned value: `LEN_BITS = 11` (rule R6), the header's and the LRCM's length field. -/
abbrev U11 := BitVec 11
/-- A 16-bit unsigned value. -/
abbrev U16 := BitVec 16
/-- A 32-bit unsigned value. -/
abbrev U32 := BitVec 32

/-- A byte sequence, index 0 first, of any finite length (rule R10). -/
abbrev Bytes := List U8

end Sys2Proof
end

