-- ==== Sys2Proof/Config.lean ====
section
/-! DEFINITION. What is fixed for a machine: the constants of rule R6, the notion of a register
format (rules R61 and R100), and the parameters that rule R7 leaves open, gathered in `Params`.
The state carries its `Params` as a field that no operation writes, so that every statement about
all states is a statement about all values of the open parameters (notes/assumptions/4.md). -/

namespace Sys2Proof

namespace Config

/-- `HDR_TYPE`: the fixed frame type tag (rules R6 and R63). -/
def hdrType : U4 := 1
/-- `LEN_LIMIT`: a header length `n` is refused when `n >= 2048` (rule R6). -/
def lenLimit : Nat := 2048
/-- `DG_FIXED`: bytes of a rendered datagram beside its payload (rule R6). -/
def dgFixed : Nat := 12
/-- `SM_BYTES`: bytes of a rendered SyncManager payload (rule R6). -/
def smBytes : Nat := 8
/-- `FMMU_BYTES`: bytes of a rendered FMMU payload (rule R6). -/
def fmmuBytes : Nat := 13
/-- `HDR_BYTES`: bytes of a rendered frame header (rule R6). -/
def hdrBytes : Nat := 2
/-- `DG_CAP`: records that the datagram store holds at most (rules R7 and R8). -/
def dgCap : Nat := 170
/-- `N_FRAMES`: frame contexts of one block (rules R7 and R142). The state holds one frame. -/
def nFrames : Nat := 1

end Config

/-- A format field is a flag (one bit, a bool) or an unsigned integer (rule R100). -/
inductive FieldKind where
  | flag | uint
deriving DecidableEq, Repr

/-- One field `(name, hi, lo, kind)` of a register format (rule R100). -/
structure Field where
  name : String
  hi   : Nat
  lo   : Nat
  kind : FieldKind
deriving DecidableEq, Repr

/-- The number of bits of a field. -/
def Field.width (f : Field) : Nat := f.hi - f.lo + 1

/-- A register format: its fields in order (rules R61 and R100). -/
abbrev Format := List Field

/-- `SMCS_LAYOUT` (rules R7 and R66): the least significant bit of each CtrlStatus field. The
widths and the order are the source's, the positions are the open parameter. -/
structure SmcsLayout where
  bufferState        : Nat
  visibleBufferState : Nat
  canReadIrq         : Nat
  canWriteIrq        : Nat
  triggerWatchdog    : Nat
  pdiIrq             : Nat
  ecatIrq            : Nat
  access             : Nat
  opMode             : Nat
deriving DecidableEq, Repr

/-- `SMEN_LAYOUT` (rules R7 and R67): the bit of each Enable flag. -/
structure SmenLayout where
  repeatAck       : Nat
  deactivate      : Nat
  latchChangePdi  : Nat
  latchChangeEcat : Nat
  repeatRequest   : Nat
  enable          : Nat
deriving DecidableEq, Repr

/-- `LRCM_OVERWIDTH` (rules R7 and R121): what `LRCM_NEW` does with `len >= 2048`. -/
inductive OverwidthPolicy where
  | reject | mask
deriving DecidableEq, Repr

/-- The open parameters of rule R7. `payloadMax = none` is the unbounded `PAYLOAD_MAX`. -/
structure Params where
  payloadMax    : Option Nat
  lrcmOverwidth : OverwidthPolicy
  smcsLayout    : SmcsLayout
  smenLayout    : SmenLayout
deriving DecidableEq, Repr

end Sys2Proof
end

