-- ==== Sys2Proof/Syntax/Records.lean ====
section
/-! DEFINITION. The record types of operands and results (spec/10_state.md section 3), each field
exactly as wide as the spec gives it, so that an over-width value cannot be written down (rules
R35 and R103), and the form of one request of the host. -/

namespace Sys2Proof

/-- The frame header register (rule R27). The headers that the block constructs have `type = 1`
and `reserved = 0`; others exist only as results of `HDR_FROM16`. -/
structure Header where
  type     : U4
  reserved : U1
  length   : U11
deriving DecidableEq, Repr

/-- The datagram's 16-bit sub-header (rule R28). -/
structure Lrcm where
  more     : Bool
  circ     : Bool
  reserved : U3
  len      : U11
deriving DecidableEq, Repr

/-- The SyncManager control/status register (rule R32), fields in the source's order. -/
structure SmCtrlStatus where
  bufferState        : U2
  visibleBufferState : Bool
  canReadIrq         : Bool
  canWriteIrq        : Bool
  triggerWatchdog    : Bool
  pdiIrq             : Bool
  ecatIrq            : Bool
  access             : U2
  opMode             : U2
deriving DecidableEq, Repr

/-- The SyncManager enable register (rule R33), fields in the source's order. -/
structure SmEnable where
  repeatAck       : Bool
  deactivate      : Bool
  latchChangePdi  : Bool
  latchChangeEcat : Bool
  repeatRequest   : Bool
  enable          : Bool
deriving DecidableEq, Repr

/-- The SyncManager device-configuration record (rule R31). -/
structure SyncManager where
  start  : U16
  length : U16
  cs     : SmCtrlStatus
  en     : SmEnable
deriving DecidableEq, Repr

/-- The FMMU device-configuration record (rule R34). The three bit numbers are full bytes. -/
structure Fmmu where
  logStart     : U32
  logLen       : U16
  logStartBit  : U8
  logEndBit    : U8
  physStart    : U16
  physStartBit : U8
  read         : Bool
  write        : Bool
  active       : Bool
deriving DecidableEq, Repr

/-- The byte-renderable payload: a tagged union of three kinds (rules R30 and R170). -/
inductive Payload where
  /-- plain bytes -/
  | raw (b : Bytes)
  /-- a SyncManager record -/
  | sm (m : SyncManager)
  /-- an FMMU record -/
  | fmmu (f : Fmmu)
deriving DecidableEq, Repr

/-- A datagram (rule R29). The block interprets none of its fields (rule R5). -/
structure Datagram where
  command : U8
  index   : U8
  address : U32
  lrcm    : Lrcm
  irq     : U16
  payload : Payload
  wkc     : U16
deriving DecidableEq, Repr

/-- The six fields of a datagram beside its command code: the operands of the table's `CMD_*`
rows, whose word is the command byte, byte 0 of the rendered datagram (rules R29 and R70). -/
structure DatagramBody where
  index   : U8
  address : U32
  lrcm    : Lrcm
  irq     : U16
  payload : Payload
  wkc     : U16
deriving DecidableEq, Repr

/-- The fifteen named datagram command codes (rule R70). -/
inductive Command where
  | nop | aprd | apwr | aprw | fprd | fpwr | fprw | brd | bwr | brw | lrd | lwr | lrw | armw | frmw
deriving DecidableEq, Repr

/-- Which of the encodings of spec/opcode_table.json a request's bytes are read in. `opsel` is the
block's own request port (rule R80); the others are the table's rows that are no operations: the
datagram command byte (rule R70) and the register formats (rule R61). DESIGN CHOICE, safe:
notes/assumptions/2.md. -/
inductive Space where
  /-- an operation-select code, then its operands (rule R80) -/
  | opsel
  /-- a datagram, its named command code first (rule R70) -/
  | cmd
  /-- a frame header word that the block emits (rule R62) -/
  | header
  /-- an LRCM word (rule R64) -/
  | lrcm
  /-- an encoded CtrlStatus word (rule R66) -/
  | smcs
  /-- an encoded Enable word (rule R67) -/
  | smen
  /-- an FMMU capability byte (rule R68) -/
  | fmmuCaps
  /-- an FMMU activation byte (rule R68) -/
  | fmmuActv
deriving DecidableEq, Repr

/-- One request as the host presents it (rule R35): the bytes of one operation and its operands.
The operand bytes are the model's own layout, DESIGN CHOICE, safe: notes/assumptions/1.md. -/
structure Request where
  space : Space
  bytes : Bytes
deriving DecidableEq, Repr

end Sys2Proof
end

