-- ==== Sys2Proof/Machine/Operands.lean ====
section
/-! DEFINITION. The serializers of multi-byte integers (rule R10), the byte order of every
multi-byte field (rules R43 to R45), the named command codes (rule R70), and the one check that
the block makes on an operand by itself, the length of a raw payload (rule R184). -/

namespace Sys2Proof.Machine

/-- `le16` (rule R10). -/
def le16 (v : U16) : Bytes := [v.extractLsb' 0 8, v.extractLsb' 8 8]

/-- `be16` (rule R10), used for the datagram's `irq` only (rule R135). -/
def be16 (v : U16) : Bytes := [v.extractLsb' 8 8, v.extractLsb' 0 8]

/-- `le32` (rule R10). -/
def le32 (v : U32) : Bytes :=
  [v.extractLsb' 0 8, v.extractLsb' 8 8, v.extractLsb' 16 8, v.extractLsb' 24 8]

/-- The datagram's address (rule R44): the upper 16 bits before the lower, each `le16`. -/
def addressBytes (a : U32) : Bytes := le16 (a.extractLsb' 16 16) ++ le16 (a.extractLsb' 0 16)

/-- The fifteen named command codes (rule R70). -/
def commandCode : Command → U8
  | .nop => 0 | .aprd => 1 | .apwr => 2 | .aprw => 3 | .fprd => 4
  | .fpwr => 5 | .fprw => 6 | .brd => 7 | .bwr => 8 | .brw => 9
  | .lrd => 10 | .lwr => 11 | .lrw => 12 | .armw => 13 | .frmw => 14

/-- The datagram with the given command code and body. -/
def datagramOf (command : U8) (b : DatagramBody) : Datagram :=
  { command := command, index := b.index, address := b.address, lrcm := b.lrcm, irq := b.irq,
    payload := b.payload, wkc := b.wkc }

/-- The length of a raw payload longer than a finite `PAYLOAD_MAX`, which is refused before any
other check (rule R184); `none` where the payload is accepted. -/
def payloadTooLong (p : Params) : Payload → Option Nat
  | .raw b => match p.payloadMax with
    | none => none
    | some m => if m < b.length then some b.length else none
  | .sm _ => none
  | .fmmu _ => none

end Sys2Proof.Machine
end

