-- ==== Sys2Proof/Syntax.lean ====
section
/-! DEFINITION. The instruction type: one constructor for each row of spec/opcode_table.json.
The first nineteen are the block's operations (rule R80), with the operand types that rule gives;
the next fifteen are the table's datagram command rows (rule R70); the last six are its register
format rows (rules R62, R64, R66, R67, R68). -/

namespace Sys2Proof

/-- One constructor per row of spec/opcode_table.json, in the table's order. -/
inductive Instr where
  /-- `FRAME_NEW`, 0x00 (rule R141) -/
  | frameNew
  /-- `FRAME_APPEND d`, 0x01 (rule R143) -/
  | frameAppend (d : Datagram)
  /-- `FRAME_RENDER`, 0x02 (rule R145) -/
  | frameRender
  /-- `HDR_DEFAULT`, 0x10 (rule R111) -/
  | hdrDefault
  /-- `HDR_WITHLEN n`, 0x11 (rule R112) -/
  | hdrWithlen (n : U16)
  /-- `HDR_RENDER16 h`, 0x12 (rule R113) -/
  | hdrRender16 (h : Header)
  /-- `HDR_FROM16 v`, 0x13 (rule R114) -/
  | hdrFrom16 (v : U16)
  /-- `HDR_LEN v`, 0x14 (rule R115) -/
  | hdrLen (v : U16)
  /-- `LRCM_NEW more, circ, len`, 0x20 (rule R121) -/
  | lrcmNew (more circ : Bool) (len : U16)
  /-- `LRCM_FROM16 v`, 0x21 (rule R122) -/
  | lrcmFrom16 (v : U16)
  /-- `LRCM_RENDER16 l`, 0x22 (rule R123) -/
  | lrcmRender16 (l : Lrcm)
  /-- `DG_RENDER d`, 0x30 (rule R132) -/
  | dgRender (d : Datagram)
  /-- `SMCS_ENC c`, 0x40 (rule R151) -/
  | smcsEnc (c : SmCtrlStatus)
  /-- `SMCS_DEC v`, 0x41 (rule R152) -/
  | smcsDec (v : U16)
  /-- `SMEN_ENC e`, 0x42 (rule R153) -/
  | smenEnc (e : SmEnable)
  /-- `SMEN_DEC v`, 0x43 (rule R154) -/
  | smenDec (v : U16)
  /-- `SM_RENDER m`, 0x44 (rule R155) -/
  | smRender (m : SyncManager)
  /-- `FMMU_RENDER f`, 0x50 (rule R161) -/
  | fmmuRender (f : Fmmu)
  /-- `RAW_RENDER b`, 0x60 (rule R172) -/
  | rawRender (b : Bytes)
  /-- `CMD_NOP`, command code 0 (rule R70) -/
  | cmdNop (b : DatagramBody)
  /-- `CMD_APRD`, command code 1 (rule R70) -/
  | cmdAprd (b : DatagramBody)
  /-- `CMD_APWR`, command code 2 (rule R70) -/
  | cmdApwr (b : DatagramBody)
  /-- `CMD_APRW`, command code 3 (rule R70) -/
  | cmdAprw (b : DatagramBody)
  /-- `CMD_FPRD`, command code 4 (rule R70) -/
  | cmdFprd (b : DatagramBody)
  /-- `CMD_FPWR`, command code 5 (rule R70) -/
  | cmdFpwr (b : DatagramBody)
  /-- `CMD_FPRW`, command code 6 (rule R70) -/
  | cmdFprw (b : DatagramBody)
  /-- `CMD_BRD`, command code 7 (rule R70) -/
  | cmdBrd (b : DatagramBody)
  /-- `CMD_BWR`, command code 8 (rule R70) -/
  | cmdBwr (b : DatagramBody)
  /-- `CMD_BRW`, command code 9 (rule R70) -/
  | cmdBrw (b : DatagramBody)
  /-- `CMD_LRD`, command code 10 (rule R70) -/
  | cmdLrd (b : DatagramBody)
  /-- `CMD_LWR`, command code 11 (rule R70) -/
  | cmdLwr (b : DatagramBody)
  /-- `CMD_LRW`, command code 12 (rule R70) -/
  | cmdLrw (b : DatagramBody)
  /-- `CMD_ARMW`, command code 13 (rule R70) -/
  | cmdArmw (b : DatagramBody)
  /-- `CMD_FRMW`, command code 14 (rule R70) -/
  | cmdFrmw (b : DatagramBody)
  /-- `REG_HEADER`, a header word with the fixed type and reserved bits (rule R62) -/
  | regHeader (length : U11)
  /-- `REG_LRCM`, an LRCM word (rule R64) -/
  | regLrcm (l : Lrcm)
  /-- `REG_SMCS`, a CtrlStatus word (rule R66) -/
  | regSmcs (c : SmCtrlStatus)
  /-- `REG_SMEN`, an Enable word (rule R67) -/
  | regSmen (e : SmEnable)
  /-- `REG_FMMU_CAPS`, an FMMU capability byte (rule R68) -/
  | regFmmuCaps (write read : Bool)
  /-- `REG_FMMU_ACTV`, an FMMU activation byte (rule R68) -/
  | regFmmuActv (active : Bool)
deriving DecidableEq, Repr

end Sys2Proof
end

