-- ==== Sys2Proof/Machine/Flags.lean ====
section
/-! DEFINITION. Flag fields and the generic bit-field packer and unpacker (spec/40_bitfield.md).
The block has no condition codes and no operation writes any (rule R26); the only flags are the
one-bit fields of its packed registers, and this file is how every one of them is put into a word
and taken out of it. -/

namespace Sys2Proof.Machine

/-- `b2n` (rule R9). -/
def b2n (b : Bool) : Nat := if b then 1 else 0

/-- `n2b` (rule R9). -/
def n2b (x : Nat) : Bool := x != 0

/-- What one field adds to the packed word: its value masked to its width, shifted to its place
(rules R72 and R101). -/
def putField (n : Nat) (f : Field) (x : Nat) : BitVec n := BitVec.ofNat n (x % 2 ^ f.width) <<< f.lo

/-- `v[hi:lo]`, the value of one field of a word (rules R9 and R102). -/
def getField {n : Nat} (f : Field) (v : BitVec n) : Nat := (v.toNat >>> f.lo) % 2 ^ f.width

/-- `bf_pack(F, fields)` (rule R101): the fields' values, in the order of the format, or-ed
together; a flag's value is given by `b2n`. -/
def bfPack (n : Nat) : Format → List Nat → BitVec n
  | f :: F, x :: xs => putField n f x ||| bfPack n F xs
  | _, _ => 0

/-- `bf_unpack(F, v)` (rule R102): every field's value, in the order of the format. -/
def bfUnpack {n : Nat} (F : Format) (v : BitVec n) : List Nat := F.map fun f => getField f v

/-- `assigned(F)` (rule R100): the word with a 1 at every bit that some field covers. -/
def bfAssigned (n : Nat) : Format → BitVec n
  | [] => 0
  | f :: F => putField n f (2 ^ f.width - 1) ||| bfAssigned n F

end Sys2Proof.Machine
end

