-- ==== Sys2Proof/Machine/Formats.lean ====
section
/-! DEFINITION. The register formats of the block (rules R61 to R68, R106) and the default values
of the open parameters (rule R7). -/

namespace Sys2Proof.Machine

/-- A flag field at one bit. -/
def flagAt (name : String) (bit : Nat) : Field := ⟨name, bit, bit, .flag⟩

/-- A 2-bit unsigned field whose lower bit is `lo`. -/
def uint2At (name : String) (lo : Nat) : Field := ⟨name, lo + 1, lo, .uint⟩

/-- Header `type`, bits 15:12 (rule R62). -/
def hdrTypeField : Field := ⟨"type", 15, 12, .uint⟩
/-- Header `reserved`, bit 11 (rule R62), of kind `uint` (rule R110). -/
def hdrReservedField : Field := ⟨"reserved", 11, 11, .uint⟩
/-- Header `length`, bits 10:0 (rule R62). -/
def hdrLengthField : Field := ⟨"length", 10, 0, .uint⟩
/-- `F_HDR` (rule R110). -/
def fHdr : Format := [hdrTypeField, hdrReservedField, hdrLengthField]

/-- LRCM `more`, bit 15 (rule R64). -/
def lrcmMoreField : Field := flagAt "more" 15
/-- LRCM `circ`, bit 14 (rule R64). -/
def lrcmCircField : Field := flagAt "circ" 14
/-- LRCM `reserved`, bits 13:11 (rules R64 and R65). -/
def lrcmReservedField : Field := ⟨"reserved", 13, 11, .uint⟩
/-- LRCM `len`, bits 10:0 (rule R64). -/
def lrcmLenField : Field := ⟨"len", 10, 0, .uint⟩
/-- `F_LRCM` (rule R120). -/
def fLrcm : Format := [lrcmMoreField, lrcmCircField, lrcmReservedField, lrcmLenField]

/-- `F_SMCS` under a layout (rules R66 and R150): nine fields, most significant first. -/
def fSmcs (L : SmcsLayout) : Format :=
  [uint2At "buffer_state" L.bufferState, flagAt "visible_buffer_state" L.visibleBufferState,
   flagAt "can_read_irq" L.canReadIrq, flagAt "can_write_irq" L.canWriteIrq,
   flagAt "trigger_watchdog" L.triggerWatchdog, flagAt "pdi_irq" L.pdiIrq,
   flagAt "ecat_irq" L.ecatIrq, uint2At "access" L.access, uint2At "op_mode" L.opMode]

/-- `F_SMEN` under a layout (rules R67 and R150): six flags, most significant first. -/
def fSmen (L : SmenLayout) : Format :=
  [flagAt "repeat_ack" L.repeatAck, flagAt "deactivate" L.deactivate,
   flagAt "latch_change_pdi" L.latchChangePdi, flagAt "latch_change_ecat" L.latchChangeEcat,
   flagAt "repeat_request" L.repeatRequest, flagAt "enable" L.enable]

/-- FMMU `caps` (rules R68 and R160): write at bit 1, read at bit 0, eight bits wide. -/
def fCaps : Format := [flagAt "write" 1, flagAt "read" 0]

/-- FMMU `actv` (rules R68 and R160): active at bit 0, eight bits wide. -/
def fActv : Format := [flagAt "active" 0]

/-- The default `SMCS_LAYOUT`: the table of rule R66. The spec marks it as its own choice (D5),
from general knowledge: notes/assumptions/5.md. -/
def smcsLayoutDefault : SmcsLayout :=
  { bufferState := 12, visibleBufferState := 11, canReadIrq := 9, canWriteIrq := 8,
    triggerWatchdog := 6, pdiIrq := 5, ecatIrq := 4, access := 2, opMode := 0 }

/-- The default `SMEN_LAYOUT`: the table of rule R67. The spec marks it as its own choice (D6),
from general knowledge: notes/assumptions/5.md. -/
def smenLayoutDefault : SmenLayout :=
  { repeatAck := 9, deactivate := 8, latchChangePdi := 7, latchChangeEcat := 6,
    repeatRequest := 1, enable := 0 }

/-- The defaults of rule R7: unbounded payloads, `reject`, and the two default layouts. -/
def paramsDefault : Params :=
  { payloadMax := none, lrcmOverwidth := .reject,
    smcsLayout := smcsLayoutDefault, smenLayout := smenLayoutDefault }

end Sys2Proof.Machine
end

