-- ==== Sys2Proof/WellFormed.lean ====
section
/-! DEFINITION. The checks on terms: that a register format is one (rule R100), that the open
parameters have values the spec admits (rules R66 and R67), and that an instruction's raw payload
is within `PAYLOAD_MAX` (rules R30 and R172). Operand widths need no check: every operand is
exactly as wide as its type (rules R35 and R103). -/

namespace Sys2Proof

/-- Two fields share no bit. -/
abbrev Field.Disjoint (f g : Field) : Prop := f.hi < g.lo ∨ g.hi < f.lo

/-- Rule R100: every field lies inside the `n` bits, a flag is one bit wide, and the bit ranges of
different fields are disjoint. -/
abbrev Format.Wf (n : Nat) (F : Format) : Prop :=
  (∀ f ∈ F, f.lo ≤ f.hi ∧ f.hi < n ∧ (f.kind = .flag → f.hi = f.lo)) ∧ F.Pairwise Field.Disjoint

/-- Rule R66: the nine fields stand in the order listed, most significant first, inside 16 bits,
and no bit set in `0x3A56` is unassigned. -/
abbrev SmcsLayout.Wf (L : SmcsLayout) : Prop :=
  Format.Wf 16 (Machine.fSmcs L) ∧ (Machine.fSmcs L).Pairwise (fun f g => g.hi < f.lo) ∧
    (0x3A56#16 &&& ~~~ Machine.bfAssigned 16 (Machine.fSmcs L)) = 0

/-- Rule R67: six distinct bit positions in the order listed, most significant first. -/
abbrev SmenLayout.Wf (L : SmenLayout) : Prop :=
  Format.Wf 16 (Machine.fSmen L) ∧ (Machine.fSmen L).Pairwise (fun f g => g.hi < f.lo)

/-- The parameters have values that rules R66 and R67 admit. -/
abbrev Params.Wf (p : Params) : Prop := p.smcsLayout.Wf ∧ p.smenLayout.Wf

/-- A payload is within `PAYLOAD_MAX`: only a raw payload can exceed it (rules R30 and R184). -/
def Payload.fits (p : Params) : Payload → Bool
  | .raw b => match p.payloadMax with
    | none => true
    | some m => b.length ≤ m
  | .sm _ => true
  | .fmmu _ => true

/-- The instruction is one that the interface admits without `PayloadTooLong`: its raw payload, if
it carries one, is within `PAYLOAD_MAX` (rules R80 and R172). -/
def Instr.wf (p : Params) : Instr → Bool
  | .frameNew => true
  | .frameAppend d => d.payload.fits p
  | .frameRender => true
  | .hdrDefault => true
  | .hdrWithlen _ => true
  | .hdrRender16 _ => true
  | .hdrFrom16 _ => true
  | .hdrLen _ => true
  | .lrcmNew _ _ _ => true
  | .lrcmFrom16 _ => true
  | .lrcmRender16 _ => true
  | .dgRender d => d.payload.fits p
  | .smcsEnc _ => true
  | .smcsDec _ => true
  | .smenEnc _ => true
  | .smenDec _ => true
  | .smRender _ => true
  | .fmmuRender _ => true
  | .rawRender b => (Payload.raw b).fits p
  | .cmdNop b => b.payload.fits p
  | .cmdAprd b => b.payload.fits p
  | .cmdApwr b => b.payload.fits p
  | .cmdAprw b => b.payload.fits p
  | .cmdFprd b => b.payload.fits p
  | .cmdFpwr b => b.payload.fits p
  | .cmdFprw b => b.payload.fits p
  | .cmdBrd b => b.payload.fits p
  | .cmdBwr b => b.payload.fits p
  | .cmdBrw b => b.payload.fits p
  | .cmdLrd b => b.payload.fits p
  | .cmdLwr b => b.payload.fits p
  | .cmdLrw b => b.payload.fits p
  | .cmdArmw b => b.payload.fits p
  | .cmdFrmw b => b.payload.fits p
  | .regHeader _ => true
  | .regLrcm _ => true
  | .regSmcs _ => true
  | .regSmen _ => true
  | .regFmmuCaps _ _ => true
  | .regFmmuActv _ => true

end Sys2Proof
end

