-- ==== Sys2Proof/Decode.lean ====
section
/-! DEFINITION. From the bytes of a request to an instruction, total and rejecting by name, and
the encoder back. The operation-select codes are those of rule R80, the command codes those of
rule R70, the register words those of rules R62, R64, R66, R67 and R68 as the opcode table writes
them. The spec fixes no operand bytes on the request port (rule R35, decision D1): that layout is
the model's, built from the spec's own wire layouts, DESIGN CHOICE (notes/assumptions/1.md). -/

namespace Sys2Proof

/-- Why the bytes of a request are no instruction. `illegalOp` is the one that the spec describes
(rule R81); the others are bytes that stand for no value of the operand types (rule R35). -/
inductive DecodeError where
  /-- an operation-select code outside the nineteen of rule R80 -/
  | illegalOp (code : U8)
  /-- a command code 15 to 255, which has no name (rule R71) and so no row of the table -/
  | unnamedCommand (code : U8)
  /-- the request holds no byte at all -/
  | noOperation
  /-- the bytes end before the operands do -/
  | truncated
  /-- bytes follow the last operand -/
  | trailingBytes
  /-- a bool, or the byte that says whether a sequence goes on, that is neither 0 nor 1 -/
  | badFlag (b : U8)
  /-- a payload kind that is none of the three of rule R30 -/
  | badPayloadKind (b : U8)
  /-- a set bit where the table's register row has a fixed 0 -/
  | unassignedBits (v : U16)
  /-- a header word that the block never emits (rule R62) -/
  | notAHeader (v : U16)
deriving DecidableEq, Repr

namespace Decode

/-- The value that a reader finds at the front of the bytes, with the bytes after it. -/
abbrev Taken (α : Type) := Except DecodeError (α × Bytes)

/-- Read on, with the value just read and the bytes after it. -/
def andThen {α β : Type} (t : Taken α) (k : α → Bytes → Taken β) : Taken β :=
  match t with
  | .ok (a, bs) => k a bs
  | .error e => .error e

/-! ### Register words -/

/-- A header as its word (rule R62): type 15:12, reserved 11, length 10:0. -/
def headerWord (h : Header) : U16 := h.type ++ h.reserved ++ h.length

/-- The header of a word (rule R62). -/
def wordHeader (v : U16) : Header :=
  { type := v.extractLsb' 12 4, reserved := v.extractLsb' 11 1, length := v.extractLsb' 0 11 }

/-- An LRCM as its word (rule R64): more 15, circ 14, reserved 13:11, len 10:0. -/
def lrcmWord (l : Lrcm) : U16 := BitVec.ofBool l.more ++ BitVec.ofBool l.circ ++ l.reserved ++ l.len

/-- The LRCM of a word (rule R64). -/
def wordLrcm (v : U16) : Lrcm :=
  { more := v.getLsbD 15, circ := v.getLsbD 14, reserved := v.extractLsb' 11 3,
    len := v.extractLsb' 0 11 }

/-- A CtrlStatus as the word of the table's `REG_SMCS` row: `00bbv0rw0tpeaaoo` (rule R66). -/
def smcsWord (c : SmCtrlStatus) : U16 :=
  0#2 ++ c.bufferState ++ BitVec.ofBool c.visibleBufferState ++ 0#1 ++ BitVec.ofBool c.canReadIrq ++
    BitVec.ofBool c.canWriteIrq ++ 0#1 ++ BitVec.ofBool c.triggerWatchdog ++ BitVec.ofBool c.pdiIrq ++
    BitVec.ofBool c.ecatIrq ++ c.access ++ c.opMode

/-- The CtrlStatus of a word of the `REG_SMCS` row. -/
def wordSmcs (v : U16) : SmCtrlStatus :=
  { bufferState := v.extractLsb' 12 2, visibleBufferState := v.getLsbD 11,
    canReadIrq := v.getLsbD 9, canWriteIrq := v.getLsbD 8, triggerWatchdog := v.getLsbD 6,
    pdiIrq := v.getLsbD 5, ecatIrq := v.getLsbD 4, access := v.extractLsb' 2 2,
    opMode := v.extractLsb' 0 2 }

/-- An Enable as the word of the table's `REG_SMEN` row: `000000kdpc0000qe` (rule R67). -/
def smenWord (e : SmEnable) : U16 :=
  0#6 ++ BitVec.ofBool e.repeatAck ++ BitVec.ofBool e.deactivate ++ BitVec.ofBool e.latchChangePdi ++
    BitVec.ofBool e.latchChangeEcat ++ 0#4 ++ BitVec.ofBool e.repeatRequest ++ BitVec.ofBool e.enable

/-- The Enable of a word of the `REG_SMEN` row. -/
def wordSmen (v : U16) : SmEnable :=
  { repeatAck := v.getLsbD 9, deactivate := v.getLsbD 8, latchChangePdi := v.getLsbD 7,
    latchChangeEcat := v.getLsbD 6, repeatRequest := v.getLsbD 1, enable := v.getLsbD 0 }

/-- The FMMU capability byte of the table's `REG_FMMU_CAPS` row: `000000wr` (rule R68). -/
def capsByte (write read : Bool) : U8 := 0#6 ++ BitVec.ofBool write ++ BitVec.ofBool read

/-- The FMMU activation byte of the table's `REG_FMMU_ACTV` row: `0000000a` (rule R68). -/
def actvByte (active : Bool) : U8 := 0#7 ++ BitVec.ofBool active

/-! ### Readers of operands, each with its writer -/

/-- One byte. -/
def takeU8 : Bytes → Taken U8
  | b :: bs => .ok (b, bs)
  | [] => .error .truncated

/-- A `u16` written as `le16`. -/
def takeU16 : Bytes → Taken U16
  | b0 :: b1 :: bs => .ok (b1 ++ b0, bs)
  | _ => .error .truncated

/-- A `u16` written as `be16` (the datagram's `irq`). -/
def takeU16Be : Bytes → Taken U16
  | b0 :: b1 :: bs => .ok (b0 ++ b1, bs)
  | _ => .error .truncated

/-- A `u32` written as `le32`. -/
def takeU32 : Bytes → Taken U32
  | b0 :: b1 :: b2 :: b3 :: bs => .ok (b3 ++ b2 ++ b1 ++ b0, bs)
  | _ => .error .truncated

/-- A datagram's address: the upper half first, each half `le16` (rule R44). -/
def takeAddress : Bytes → Taken U32
  | b0 :: b1 :: b2 :: b3 :: bs => .ok (b1 ++ b0 ++ b3 ++ b2, bs)
  | _ => .error .truncated

/-- A bool, one byte 0 or 1. -/
def putBool (b : Bool) : Bytes := [if b then 1 else 0]

/-- A bool, one byte 0 or 1. -/
def takeBool : Bytes → Taken Bool
  | b :: bs => if b = 0 then .ok (false, bs) else if b = 1 then .ok (true, bs) else .error (.badFlag b)
  | [] => .error .truncated

/-- A byte sequence of any length: before each byte a 1, after the last byte a 0. -/
def putBytes : Bytes → Bytes
  | [] => [0]
  | b :: bs => 1 :: b :: putBytes bs

/-- A byte sequence of any length: before each byte a 1, after the last byte a 0. -/
def takeBytes : Bytes → Taken Bytes
  | [] => .error .truncated
  | [t] => if t = 0 then .ok ([], []) else if t = 1 then .error .truncated else .error (.badFlag t)
  | t :: b :: bs =>
    if t = 0 then .ok ([], b :: bs)
    else if t = 1 then
      match takeBytes bs with
      | .ok (xs, r) => .ok (b :: xs, r)
      | .error e => .error e
    else .error (.badFlag t)

/-- A header, its word `le16`. -/
def takeHeader (bs : Bytes) : Taken Header :=
  andThen (takeU16 bs) fun v bs =>
  .ok (wordHeader v, bs)

/-- An LRCM, its word `le16`. -/
def takeLrcm (bs : Bytes) : Taken Lrcm :=
  andThen (takeU16 bs) fun v bs =>
  .ok (wordLrcm v, bs)

/-- A CtrlStatus, its `REG_SMCS` word `le16`. -/
def takeSmcs (bs : Bytes) : Taken SmCtrlStatus :=
  andThen (takeU16 bs) fun v bs =>
  if v &&& 0xC480 = 0 then .ok (wordSmcs v, bs) else .error (.unassignedBits v)

/-- An Enable, its `REG_SMEN` word `le16`. -/
def takeSmen (bs : Bytes) : Taken SmEnable :=
  andThen (takeU16 bs) fun v bs =>
  if v &&& 0xFC3C = 0 then .ok (wordSmen v, bs) else .error (.unassignedBits v)

/-- The two FMMU access flags, one byte. -/
def takeCaps (bs : Bytes) : Taken (Bool × Bool) :=
  andThen (takeU8 bs) fun v bs =>
  if v &&& 0xFC = 0 then .ok ((v.getLsbD 1, v.getLsbD 0), bs)
  else .error (.unassignedBits (v.setWidth 16))

/-- The FMMU active flag, one byte. -/
def takeActv (bs : Bytes) : Taken Bool :=
  andThen (takeU8 bs) fun v bs =>
  if v &&& 0xFE = 0 then .ok (v.getLsbD 0, bs) else .error (.unassignedBits (v.setWidth 16))

/-- A SyncManager record in the layout of rule R69. -/
def putSyncManager (m : SyncManager) : Bytes :=
  Machine.le16 m.start ++ Machine.le16 m.length ++ Machine.le16 (smcsWord m.cs) ++
    Machine.le16 (smenWord m.en)

/-- A SyncManager record in the layout of rule R69. -/
def takeSyncManager (bs : Bytes) : Taken SyncManager :=
  andThen (takeU16 bs) fun start bs =>
  andThen (takeU16 bs) fun length bs =>
  andThen (takeSmcs bs) fun cs bs =>
  andThen (takeSmen bs) fun en bs =>
  .ok ({ start, length, cs, en }, bs)

/-- An FMMU record in the layout of rule R68. -/
def putFmmu (f : Fmmu) : Bytes :=
  Machine.le32 f.logStart ++ Machine.le16 f.logLen ++ [f.logStartBit, f.logEndBit] ++
    Machine.le16 f.physStart ++ [f.physStartBit, capsByte f.write f.read, actvByte f.active]

/-- An FMMU record in the layout of rule R68. -/
def takeFmmu (bs : Bytes) : Taken Fmmu :=
  andThen (takeU32 bs) fun logStart bs =>
  andThen (takeU16 bs) fun logLen bs =>
  andThen (takeU8 bs) fun logStartBit bs =>
  andThen (takeU8 bs) fun logEndBit bs =>
  andThen (takeU16 bs) fun physStart bs =>
  andThen (takeU8 bs) fun physStartBit bs =>
  andThen (takeCaps bs) fun wr bs =>
  andThen (takeActv bs) fun active bs =>
  .ok ({ logStart := logStart, logLen := logLen, logStartBit := logStartBit, logEndBit := logEndBit,
         physStart := physStart, physStartBit := physStartBit, read := wr.2, write := wr.1,
         active := active }, bs)

/-- A payload: one byte for its kind (0 raw, 1 SyncManager, 2 FMMU), then the value. -/
def putPayload : Payload → Bytes
  | .raw b => 0 :: putBytes b
  | .sm m => 1 :: putSyncManager m
  | .fmmu f => 2 :: putFmmu f

/-- A payload: one byte for its kind (0 raw, 1 SyncManager, 2 FMMU), then the value. -/
def takePayload (bs : Bytes) : Taken Payload :=
  andThen (takeU8 bs) fun k bs =>
  if k = 0 then
    andThen (takeBytes bs) fun b bs =>
    .ok (.raw b, bs)
  else if k = 1 then
    andThen (takeSyncManager bs) fun m bs =>
    .ok (.sm m, bs)
  else if k = 2 then
    andThen (takeFmmu bs) fun f bs =>
    .ok (.fmmu f, bs)
  else .error (.badPayloadKind k)

/-- A datagram's six fields after its command, in the order and byte order of rule R74. -/
def putBody (d : DatagramBody) : Bytes :=
  d.index :: (Machine.addressBytes d.address ++ Machine.le16 (lrcmWord d.lrcm) ++
    Machine.be16 d.irq ++ putPayload d.payload ++ Machine.le16 d.wkc)

/-- A datagram's six fields after its command, in the order and byte order of rule R74. -/
def takeBody (bs : Bytes) : Taken DatagramBody :=
  andThen (takeU8 bs) fun index bs =>
  andThen (takeAddress bs) fun address bs =>
  andThen (takeLrcm bs) fun lrcm bs =>
  andThen (takeU16Be bs) fun irq bs =>
  andThen (takePayload bs) fun payload bs =>
  andThen (takeU16 bs) fun wkc bs =>
  .ok ({ index, address, lrcm, irq, payload, wkc }, bs)

/-- A datagram's body, taken from the datagram. -/
def bodyOf (d : Datagram) : DatagramBody :=
  { index := d.index, address := d.address, lrcm := d.lrcm, irq := d.irq, payload := d.payload,
    wkc := d.wkc }

/-- A datagram: its command, any byte (rule R71), then its body. -/
def putDatagram (d : Datagram) : Bytes := d.command :: putBody (bodyOf d)

/-- A datagram: its command, any byte (rule R71), then its body. -/
def takeDatagram (bs : Bytes) : Taken Datagram :=
  andThen (takeU8 bs) fun c bs =>
  andThen (takeBody bs) fun b bs =>
  .ok (Machine.datagramOf c b, bs)

/-! ### The decoder -/

/-- The operation that an operation-select code names (rule R80), with its operands read from the
bytes after the code; any other code is `illegalOp` (rule R81), before any operand is looked at
(rule R187). -/
def decodeOpsel (code : U8) (bs : Bytes) : Taken Instr :=
  match code.toNat with
  | 0x00 => .ok (.frameNew, bs)
  | 0x01 => andThen (takeDatagram bs) fun d bs => .ok (.frameAppend d, bs)
  | 0x02 => .ok (.frameRender, bs)
  | 0x10 => .ok (.hdrDefault, bs)
  | 0x11 => andThen (takeU16 bs) fun n bs => .ok (.hdrWithlen n, bs)
  | 0x12 => andThen (takeHeader bs) fun h bs => .ok (.hdrRender16 h, bs)
  | 0x13 => andThen (takeU16 bs) fun v bs => .ok (.hdrFrom16 v, bs)
  | 0x14 => andThen (takeU16 bs) fun v bs => .ok (.hdrLen v, bs)
  | 0x20 =>
    andThen (takeBool bs) fun more bs =>
    andThen (takeBool bs) fun circ bs =>
    andThen (takeU16 bs) fun len bs =>
    .ok (.lrcmNew more circ len, bs)
  | 0x21 => andThen (takeU16 bs) fun v bs => .ok (.lrcmFrom16 v, bs)
  | 0x22 => andThen (takeLrcm bs) fun l bs => .ok (.lrcmRender16 l, bs)
  | 0x30 => andThen (takeDatagram bs) fun d bs => .ok (.dgRender d, bs)
  | 0x40 => andThen (takeSmcs bs) fun c bs => .ok (.smcsEnc c, bs)
  | 0x41 => andThen (takeU16 bs) fun v bs => .ok (.smcsDec v, bs)
  | 0x42 => andThen (takeSmen bs) fun e bs => .ok (.smenEnc e, bs)
  | 0x43 => andThen (takeU16 bs) fun v bs => .ok (.smenDec v, bs)
  | 0x44 => andThen (takeSyncManager bs) fun m bs => .ok (.smRender m, bs)
  | 0x50 => andThen (takeFmmu bs) fun f bs => .ok (.fmmuRender f, bs)
  | 0x60 => andThen (takeBytes bs) fun b bs => .ok (.rawRender b, bs)
  | _ => .error (.illegalOp code)

/-- The command of a named code (rule R70). -/
def commandOf (code : U8) : Option Command :=
  match code.toNat with
  | 0 => some .nop | 1 => some .aprd | 2 => some .apwr | 3 => some .aprw | 4 => some .fprd
  | 5 => some .fpwr | 6 => some .fprw | 7 => some .brd | 8 => some .bwr | 9 => some .brw
  | 10 => some .lrd | 11 => some .lwr | 12 => some .lrw | 13 => some .armw | 14 => some .frmw
  | _ => none

/-- The instruction of the table's row for a command. -/
def commandInstr : Command → DatagramBody → Instr
  | .nop => .cmdNop | .aprd => .cmdAprd | .apwr => .cmdApwr | .aprw => .cmdAprw
  | .fprd => .cmdFprd | .fpwr => .cmdFpwr | .fprw => .cmdFprw | .brd => .cmdBrd
  | .bwr => .cmdBwr | .brw => .cmdBrw | .lrd => .cmdLrd | .lwr => .cmdLwr | .lrw => .cmdLrw
  | .armw => .cmdArmw | .frmw => .cmdFrmw

/-- A datagram's bytes with a named command code first (rules R70 and R74). -/
def decodeCmd (code : U8) (bs : Bytes) : Taken Instr :=
  match commandOf code with
  | some c => andThen (takeBody bs) fun b bs => .ok (commandInstr c b, bs)
  | none => .error (.unnamedCommand code)

/-- A header word that the block emits: `00010lllllllllll` (rule R62). -/
def decodeHeaderReg (bs : Bytes) : Taken Instr :=
  andThen (takeU16 bs) fun v bs =>
  if v &&& 0xF800 = 0x1000 then .ok (.regHeader (v.extractLsb' 0 11), bs) else .error (.notAHeader v)

/-- The instruction at the front of the bytes of a request, read in the request's encoding. -/
def decode (space : Space) (bs : Bytes) : Taken Instr :=
  match space, bs with
  | _, [] => .error .noOperation
  | .opsel, code :: bs => decodeOpsel code bs
  | .cmd, code :: bs => decodeCmd code bs
  | .header, bs => decodeHeaderReg bs
  | .lrcm, bs => andThen (takeLrcm bs) fun l bs => .ok (.regLrcm l, bs)
  | .smcs, bs => andThen (takeSmcs bs) fun c bs => .ok (.regSmcs c, bs)
  | .smen, bs => andThen (takeSmen bs) fun e bs => .ok (.regSmen e, bs)
  | .fmmuCaps, bs => andThen (takeCaps bs) fun wr bs => .ok (.regFmmuCaps wr.1 wr.2, bs)
  | .fmmuActv, bs => andThen (takeActv bs) fun active bs => .ok (.regFmmuActv active, bs)

/-- The instruction of a whole request: its bytes are one instruction and nothing more. -/
def decodeRequest (r : Request) : Except DecodeError Instr :=
  match decode r.space r.bytes with
  | .ok (i, []) => .ok i
  | .ok (_, _ :: _) => .error .trailingBytes
  | .error e => .error e

/-! ### The encoder -/

/-- The request that presents an instruction: rule R80's code and the operands, rule R70's code and
the datagram's body, or the register's word. -/
def encode : Instr → Request
  | .frameNew => ⟨.opsel, [0x00]⟩
  | .frameAppend d => ⟨.opsel, 0x01 :: putDatagram d⟩
  | .frameRender => ⟨.opsel, [0x02]⟩
  | .hdrDefault => ⟨.opsel, [0x10]⟩
  | .hdrWithlen n => ⟨.opsel, 0x11 :: Machine.le16 n⟩
  | .hdrRender16 h => ⟨.opsel, 0x12 :: Machine.le16 (headerWord h)⟩
  | .hdrFrom16 v => ⟨.opsel, 0x13 :: Machine.le16 v⟩
  | .hdrLen v => ⟨.opsel, 0x14 :: Machine.le16 v⟩
  | .lrcmNew more circ len => ⟨.opsel, 0x20 :: (putBool more ++ putBool circ ++ Machine.le16 len)⟩
  | .lrcmFrom16 v => ⟨.opsel, 0x21 :: Machine.le16 v⟩
  | .lrcmRender16 l => ⟨.opsel, 0x22 :: Machine.le16 (lrcmWord l)⟩
  | .dgRender d => ⟨.opsel, 0x30 :: putDatagram d⟩
  | .smcsEnc c => ⟨.opsel, 0x40 :: Machine.le16 (smcsWord c)⟩
  | .smcsDec v => ⟨.opsel, 0x41 :: Machine.le16 v⟩
  | .smenEnc e => ⟨.opsel, 0x42 :: Machine.le16 (smenWord e)⟩
  | .smenDec v => ⟨.opsel, 0x43 :: Machine.le16 v⟩
  | .smRender m => ⟨.opsel, 0x44 :: putSyncManager m⟩
  | .fmmuRender f => ⟨.opsel, 0x50 :: putFmmu f⟩
  | .rawRender b => ⟨.opsel, 0x60 :: putBytes b⟩
  | .cmdNop b => ⟨.cmd, 0 :: putBody b⟩
  | .cmdAprd b => ⟨.cmd, 1 :: putBody b⟩
  | .cmdApwr b => ⟨.cmd, 2 :: putBody b⟩
  | .cmdAprw b => ⟨.cmd, 3 :: putBody b⟩
  | .cmdFprd b => ⟨.cmd, 4 :: putBody b⟩
  | .cmdFpwr b => ⟨.cmd, 5 :: putBody b⟩
  | .cmdFprw b => ⟨.cmd, 6 :: putBody b⟩
  | .cmdBrd b => ⟨.cmd, 7 :: putBody b⟩
  | .cmdBwr b => ⟨.cmd, 8 :: putBody b⟩
  | .cmdBrw b => ⟨.cmd, 9 :: putBody b⟩
  | .cmdLrd b => ⟨.cmd, 10 :: putBody b⟩
  | .cmdLwr b => ⟨.cmd, 11 :: putBody b⟩
  | .cmdLrw b => ⟨.cmd, 12 :: putBody b⟩
  | .cmdArmw b => ⟨.cmd, 13 :: putBody b⟩
  | .cmdFrmw b => ⟨.cmd, 14 :: putBody b⟩
  | .regHeader length => ⟨.header, Machine.le16 (2#5 ++ length)⟩
  | .regLrcm l => ⟨.lrcm, Machine.le16 (lrcmWord l)⟩
  | .regSmcs c => ⟨.smcs, Machine.le16 (smcsWord c)⟩
  | .regSmen e => ⟨.smen, Machine.le16 (smenWord e)⟩
  | .regFmmuCaps write read => ⟨.fmmuCaps, [capsByte write read]⟩
  | .regFmmuActv active => ⟨.fmmuActv, [actvByte active]⟩

/-! ### Words of the opcode table -/

/-- The nineteen operation-select codes of rule R80. -/
def operationCodes : List Nat :=
  [0x00, 0x01, 0x02, 0x10, 0x11, 0x12, 0x13, 0x14, 0x20, 0x21, 0x22, 0x30, 0x40, 0x41, 0x42, 0x43,
   0x44, 0x50, 0x60]

/-- The encoding in which a bare word of the opcode table is read. The table's formats overlap (an
8-bit 0 is `FRAME_NEW`, `CMD_NOP` and both FMMU bytes); a word is read as an operation if it is
one, else as a named command; a 16-bit word as the register row with the most fixed bits that it
matches. DESIGN CHOICE, safe: notes/assumptions/3.md. -/
def tableSpace (nbits w : Nat) : Space :=
  if nbits ≤ 8 then
    if operationCodes.contains w then .opsel
    else if w ≤ 14 then .cmd
    else .opsel
  else
    let v : U16 := BitVec.ofNat 16 w
    if v &&& 0xFC3C = 0 then .smen
    else if v &&& 0xF800 = 0x1000 then .header
    else if v &&& 0xC480 = 0 then .smcs
    else .lrcm

/-- The bytes of a word of the table, the first byte the least significant. -/
def wordBytes (nbits w : Nat) : Bytes :=
  (List.range (nbits / 8)).map fun k => BitVec.ofNat 8 (w >>> (8 * k))

/-- The request that a word of the table stands for: the word's bytes and then, where the
instruction has operands, operand bytes of zeros, as many as the instruction has. -/
def requestOfWord (nbits w : Nat) : Request :=
  let space := tableSpace nbits w
  let padded := wordBytes nbits w ++ List.replicate 16 0
  match decode space padded with
  | .ok (_, rest) => ⟨space, padded.take (padded.length - rest.length)⟩
  | .error _ => ⟨space, wordBytes nbits w⟩

end Decode

/-- The instruction that the decoder reads from a word of the opcode table, operand bytes zero. -/
def decodeTableWord (nbits w : Nat) : Option Instr :=
  match Decode.decodeRequest (Decode.requestOfWord nbits w) with
  | .ok i => some i
  | .error _ => none

end Sys2Proof
end

