-- ==== Sys2Proof/Machine/State.lean ====
section
/-! DEFINITION. The state: the frame context of rule R20 (`fh`, `dgs`), which is the whole
architectural state of the block, and three fields of the model's own: the open parameters of rule
R7, the requests that the host has yet to issue, and the response to the last operation (rule
R35). All of it is plain data. -/

namespace Sys2Proof.Machine

/-- The refusal statuses of rule R181. A refusal is an answer of the block and no stop of the
machine: the next state holds it in `response`, nothing else changed (rule R186). -/
inductive Cause where
  /-- a header length of 2048 or more was asked for (rule R182) -/
  | outOfRange
  /-- `LRCM_NEW` with a length of 2048 or more (rule R183) -/
  | lenOverwidth
  /-- an operation-select code that names no operation (rule R81) -/
  | illegalOp
  /-- a raw payload longer than a finite `PAYLOAD_MAX` (rule R184) -/
  | payloadTooLong
deriving DecidableEq, Repr

/-- The result of an operation with status `OK` (rule R35; the types are rule R80's). -/
inductive Result where
  /-- no result -/
  | nothing
  /-- a `u16` -/
  | word (v : U16)
  /-- a `u11`, the result of `HDR_LEN` -/
  | length (v : U11)
  /-- a `u8`, an FMMU flag byte -/
  | byte (v : U8)
  /-- a frame header -/
  | header (h : Header)
  /-- an LRCM -/
  | lrcm (l : Lrcm)
  /-- a CtrlStatus -/
  | ctrlStatus (c : SmCtrlStatus)
  /-- an Enable -/
  | enable (e : SmEnable)
  /-- a byte sequence, index 0 sent first -/
  | bytes (b : Bytes)
deriving DecidableEq, Repr

/-- The response to one request (rule R35): `OK` with its result, or a refusal with the value
reported beside it (rule R181) and no result. -/
inductive Response where
  /-- status `OK` -/
  | ok (result : Result)
  /-- another status, with the value reported -/
  | raised (cause : Cause) (info : Nat)
deriving DecidableEq, Repr

/-- Why the machine stops with a fault: never. The block has no trap and every operation ends in a
response (rules R185, R189), so the type has no constructor; safe. -/
inductive Fault where
deriving DecidableEq, Repr

/-- Why a step has no meaning. -/
inductive Refusal where
  /-- Raised by `exec` for an instruction without a meaning; no arm raises it. Safe. -/
  | notModelled (mnemonic : String)
  /-- Raised by `step` for request bytes that stand for no operation with operands of its types,
  which the interface cannot present (rules R35 and R103). Safe: notes/assumptions/1.md. -/
  | malformedRequest (e : DecodeError)
deriving DecidableEq, Repr

/-- The machine's state. -/
structure State where
  /-- `FH`, the frame header; its length field is the frame-length accumulator (rule R20) -/
  fh       : Header
  /-- `DGS`, the datagram store, in insertion order (rule R20) -/
  dgs      : List Datagram
  /-- the open parameters (rule R7), written by nothing -/
  params   : Params
  /-- the requests that the host has yet to issue, the next one first (rules R35, R50) -/
  requests : List Request
  /-- the response to the last operation, `none` before the first (rule R35); read by nothing -/
  response : Option Response
deriving DecidableEq, Repr

/-- The frame header of a new frame (rules R141 and R200). -/
def State.freshHeader : Header := { type := 1, reserved := 0, length := 0 }

/-- The machine right after reset (rule R200), with the default parameters (rule R7), no request
issued and no response given. -/
def State.reset : State :=
  { fh := State.freshHeader, dgs := [], params := paramsDefault, requests := [], response := none }

/-- What an operation answers. -/
abbrev Answer := Host.Outcome State Fault Refusal

end Sys2Proof.Machine
end

