-- ==== Sys2Proof/Machine/Ops.lean ====
section
/-! DEFINITION. The operations that every meaning shares: answering with a result, refusing, the
check of a raw payload's length, and the reset of the block. The block has no trap entry and no
trap return (rule R189): a refusal, `raise`, is its only exception, and it transfers no control. -/

namespace Sys2Proof.Machine

/-- The numeric status codes (rule R181). -/
def Cause.code : Cause → Nat
  | .outOfRange => 1
  | .lenOverwidth => 2
  | .illegalOp => 3
  | .payloadTooLong => 4

/-- The status code of a response; `OK` is 0 (rule R181). -/
def Response.code : Response → Nat
  | .ok _ => 0
  | .raised c _ => c.code

/-- The state with a new response, which replaces the one before it: no status is kept (rule R26). -/
def State.respond (s : State) (r : Response) : State := { s with response := some r }

/-- The state with a new frame, header and store written together (rule R49). -/
def State.setFrame (s : State) (h : Header) (ds : List Datagram) : State :=
  { s with fh := h, dgs := ds }

/-- The state with other requests outstanding. -/
def State.setRequests (s : State) (rs : List Request) : State := { s with requests := rs }

/-- `return v` (rule R11): status `OK` and the result. -/
def ret (r : Result) (s : State) : Answer := .next (s.respond (.ok r))

/-- `raise <Status>(info)` (rules R11 and R186): the response is the refusal with the value it
reports; no state is written. -/
def raise (c : Cause) (info : Nat) (s : State) : Answer :=
  .next (s.respond (.raised c info))

/-- An operation that carries a payload refuses a raw payload longer than a finite `PAYLOAD_MAX`
before its own check (rules R184 and R187); otherwise it goes on. -/
def withPayload (pl : Payload) (s : State) (k : Answer) : Answer :=
  match payloadTooLong s.params pl with
  | some n => raise .payloadTooLong n s
  | none => k

/-- Reset of the block (rule R200): `FH` and `DGS` as `FRAME_NEW` leaves them, no response and no
request outstanding; the parameters are the machine's own and stay. -/
def resetBlock (s : State) : State :=
  { s with fh := State.freshHeader, dgs := [], requests := [], response := none }

end Sys2Proof.Machine
end

