-- ==== Sys2Proof/Machine/Lrcm.lean ====
section
/-! DEFINITION. The LRCM operations (spec/42_lrcm.md). All three are pure. -/

namespace Sys2Proof.Machine

/-- The LRCM's field values in the order of its format. -/
def lrcmValues (l : Lrcm) : List Nat := [b2n l.more, b2n l.circ, l.reserved.toNat, l.len.toNat]

/-- `lrcm_u16` (rule R120). -/
def lrcmU16 (l : Lrcm) : U16 := bfPack 16 fLrcm (lrcmValues l)

/-- `lrcm_wire` (rule R120). -/
def lrcmWire (l : Lrcm) : Bytes := le16 (lrcmU16 l)

/-- The LRCM of a word (rule R122). -/
def lrcmOfU16 (v : U16) : Lrcm :=
  { more := n2b (getField lrcmMoreField v)
    circ := n2b (getField lrcmCircField v)
    reserved := BitVec.ofNat 3 (getField lrcmReservedField v)
    len := BitVec.ofNat 11 (getField lrcmLenField v) }

/-- The LRCM that `LRCM_NEW` makes: reserved bits zero, the length's low eleven bits (rule R121;
below 2048 these are the whole length). -/
def lrcmMade (more circ : Bool) (len : U16) : Lrcm :=
  { more := more, circ := circ, reserved := 0, len := len.extractLsb' 0 11 }

/-- `LRCM_NEW` (rule R121), with the two policies of `LRCM_OVERWIDTH` for `len >= 2048`. -/
def execLrcmNew (more circ : Bool) (len : U16) (s : State) : Answer :=
  if len.toNat ≥ 2048 then
    match s.params.lrcmOverwidth with
    | .reject => raise .lenOverwidth len.toNat s
    | .mask => ret (.lrcm (lrcmMade more circ len)) s
  else ret (.lrcm (lrcmMade more circ len)) s

/-- `LRCM_FROM16` (rule R122). -/
def execLrcmFrom16 (v : U16) (s : State) : Answer := ret (.lrcm (lrcmOfU16 v)) s

/-- `LRCM_RENDER16` (rule R123). -/
def execLrcmRender16 (l : Lrcm) (s : State) : Answer := ret (.word (lrcmU16 l)) s

end Sys2Proof.Machine
end

