-- ==== Sys2Proof/Machine/Fmmu.lean ====
section
/-! DEFINITION. The FMMU register serializer (spec/46_fmmu.md). It is pure, and there is no FMMU
decode (rule R163). -/

namespace Sys2Proof.Machine

/-- `fmmu_caps` (rule R160): bit 0 read, bit 1 write, the other bits 0. -/
def fmmuCaps (write read : Bool) : U8 := bfPack 8 fCaps [b2n write, b2n read]

/-- `fmmu_actv` (rule R160): bit 0 active, the other bits 0. -/
def fmmuActv (active : Bool) : U8 := bfPack 8 fActv [b2n active]

/-- `fmmu_bytes` (rule R161): thirteen bytes (rule R162). -/
def fmmuBytes (f : Fmmu) : Bytes :=
  le32 f.logStart ++ le16 f.logLen ++ [f.logStartBit] ++ [f.logEndBit] ++ le16 f.physStart ++
    [f.physStartBit] ++ [fmmuCaps f.write f.read] ++ [fmmuActv f.active]

/-- `FMMU_RENDER` (rule R161). -/
def execFmmuRender (f : Fmmu) (s : State) : Answer := ret (.bytes (fmmuBytes f)) s

end Sys2Proof.Machine
end

