-- ==== Sys2Proof/Machine/SyncManager.lean ====
section
/-! DEFINITION. The SyncManager register serializer (spec/45_syncmanager.md). All five operations
are pure; the bit positions are the parameters `SMCS_LAYOUT` and `SMEN_LAYOUT`. -/

namespace Sys2Proof.Machine

/-- The CtrlStatus field values in the order of its format. -/
def smcsValues (c : SmCtrlStatus) : List Nat :=
  [c.bufferState.toNat, b2n c.visibleBufferState, b2n c.canReadIrq, b2n c.canWriteIrq,
   b2n c.triggerWatchdog, b2n c.pdiIrq, b2n c.ecatIrq, c.access.toNat, c.opMode.toNat]

/-- The Enable field values in the order of its format. -/
def smenValues (e : SmEnable) : List Nat :=
  [b2n e.repeatAck, b2n e.deactivate, b2n e.latchChangePdi, b2n e.latchChangeEcat,
   b2n e.repeatRequest, b2n e.enable]

/-- `smcs_u16` (rule R150). -/
def smcsU16 (L : SmcsLayout) (c : SmCtrlStatus) : U16 := bfPack 16 (fSmcs L) (smcsValues c)

/-- `smen_u16` (rule R150). -/
def smenU16 (L : SmenLayout) (e : SmEnable) : U16 := bfPack 16 (fSmen L) (smenValues e)

/-- The CtrlStatus of a word (rule R152): unassigned bits are ignored and lost. -/
def smcsOfU16 (L : SmcsLayout) (v : U16) : SmCtrlStatus :=
  { bufferState := BitVec.ofNat 2 (getField (uint2At "buffer_state" L.bufferState) v)
    visibleBufferState := n2b (getField (flagAt "visible_buffer_state" L.visibleBufferState) v)
    canReadIrq := n2b (getField (flagAt "can_read_irq" L.canReadIrq) v)
    canWriteIrq := n2b (getField (flagAt "can_write_irq" L.canWriteIrq) v)
    triggerWatchdog := n2b (getField (flagAt "trigger_watchdog" L.triggerWatchdog) v)
    pdiIrq := n2b (getField (flagAt "pdi_irq" L.pdiIrq) v)
    ecatIrq := n2b (getField (flagAt "ecat_irq" L.ecatIrq) v)
    access := BitVec.ofNat 2 (getField (uint2At "access" L.access) v)
    opMode := BitVec.ofNat 2 (getField (uint2At "op_mode" L.opMode) v) }

/-- The Enable of a word (rule R154): unassigned bits are ignored and lost. -/
def smenOfU16 (L : SmenLayout) (v : U16) : SmEnable :=
  { repeatAck := n2b (getField (flagAt "repeat_ack" L.repeatAck) v)
    deactivate := n2b (getField (flagAt "deactivate" L.deactivate) v)
    latchChangePdi := n2b (getField (flagAt "latch_change_pdi" L.latchChangePdi) v)
    latchChangeEcat := n2b (getField (flagAt "latch_change_ecat" L.latchChangeEcat) v)
    repeatRequest := n2b (getField (flagAt "repeat_request" L.repeatRequest) v)
    enable := n2b (getField (flagAt "enable" L.enable) v) }

/-- `sm_bytes` (rule R155). -/
def smBytes (p : Params) (m : SyncManager) : Bytes :=
  le16 m.start ++ le16 m.length ++ le16 (smcsU16 p.smcsLayout m.cs) ++
    le16 (smenU16 p.smenLayout m.en)

/-- `SMCS_ENC` (rule R151). -/
def execSmcsEnc (c : SmCtrlStatus) (s : State) : Answer :=
  ret (.word (smcsU16 s.params.smcsLayout c)) s

/-- `SMCS_DEC` (rule R152). -/
def execSmcsDec (v : U16) (s : State) : Answer :=
  ret (.ctrlStatus (smcsOfU16 s.params.smcsLayout v)) s

/-- `SMEN_ENC` (rule R153). -/
def execSmenEnc (e : SmEnable) (s : State) : Answer :=
  ret (.word (smenU16 s.params.smenLayout e)) s

/-- `SMEN_DEC` (rule R154). -/
def execSmenDec (v : U16) (s : State) : Answer :=
  ret (.enable (smenOfU16 s.params.smenLayout v)) s

/-- `SM_RENDER` (rule R155). -/
def execSmRender (m : SyncManager) (s : State) : Answer := ret (.bytes (smBytes s.params m)) s

end Sys2Proof.Machine
end

