-- ==== Sys2Proof/Machine/RawPayload.lean ====
section
/-! DEFINITION. The byte-renderable payload (spec/47_payload.md): the dispatch on its kind and the
operation on plain bytes. -/

namespace Sys2Proof.Machine

/-- `payload_bytes` (rule R171). -/
def payloadBytes (p : Params) : Payload → Bytes
  | .raw b => b
  | .sm m => smBytes p m
  | .fmmu f => fmmuBytes f

/-- `RAW_RENDER` (rule R172): a byte buffer renders to itself, unless it is longer than a finite
`PAYLOAD_MAX` (rule R184). -/
def execRawRender (b : Bytes) (s : State) : Answer := withPayload (.raw b) s (ret (.bytes b) s)

end Sys2Proof.Machine
end

