-- ==== Sys2Proof/Machine/DatagramRender.lean ====
section
/-! DEFINITION. The datagram serializer (spec/43_datagram.md). It is pure. -/

namespace Sys2Proof.Machine

/-- `dg_bytes` (rule R131). -/
def dgBytes (p : Params) (d : Datagram) : Bytes :=
  [d.command] ++ [d.index] ++ addressBytes d.address ++ lrcmWire d.lrcm ++ be16 d.irq ++
    payloadBytes p d.payload ++ le16 d.wkc

/-- `dg_len` (rule R133): the number of rendered bytes, never the LRCM's length field (rule R134). -/
def dgLen (p : Params) (d : Datagram) : Nat := (dgBytes p d).length

/-- Rendering a datagram as an operation: a raw payload longer than a finite `PAYLOAD_MAX` is
refused (rule R184), any other datagram renders (rule R132). -/
def renderDatagram (d : Datagram) (s : State) : Answer :=
  withPayload d.payload s (ret (.bytes (dgBytes s.params d)) s)

/-- `DG_RENDER` (rule R132). -/
def execDgRender (d : Datagram) (s : State) : Answer := renderDatagram d s

end Sys2Proof.Machine
end

