-- ==== Sys2Proof/Machine/Commands.lean ====
section
/-! DEFINITION. The opcode table's datagram command rows (rule R70). A command code is byte 0 of
the rendered datagram and has no other effect (rules R70 and R131): each row's meaning is the
rendering of the datagram that has this command. DESIGN CHOICE, safe: notes/assumptions/2.md. -/

namespace Sys2Proof.Machine

/-- Rendering the datagram with a named command (rules R70 and R131). -/
def renderCommand (c : Command) (b : DatagramBody) (s : State) : Answer :=
  renderDatagram (datagramOf (commandCode c) b) s

/-- `CMD_NOP`: command code 0 (rule R70). -/
def execCmdNop (b : DatagramBody) (s : State) : Answer := renderCommand .nop b s

/-- `CMD_APRD`: command code 1 (rule R70). -/
def execCmdAprd (b : DatagramBody) (s : State) : Answer := renderCommand .aprd b s

/-- `CMD_APWR`: command code 2 (rule R70). -/
def execCmdApwr (b : DatagramBody) (s : State) : Answer := renderCommand .apwr b s

/-- `CMD_APRW`: command code 3 (rule R70). -/
def execCmdAprw (b : DatagramBody) (s : State) : Answer := renderCommand .aprw b s

/-- `CMD_FPRD`: command code 4 (rule R70). -/
def execCmdFprd (b : DatagramBody) (s : State) : Answer := renderCommand .fprd b s

/-- `CMD_FPWR`: command code 5 (rule R70). -/
def execCmdFpwr (b : DatagramBody) (s : State) : Answer := renderCommand .fpwr b s

/-- `CMD_FPRW`: command code 6 (rule R70). -/
def execCmdFprw (b : DatagramBody) (s : State) : Answer := renderCommand .fprw b s

/-- `CMD_BRD`: command code 7 (rule R70). -/
def execCmdBrd (b : DatagramBody) (s : State) : Answer := renderCommand .brd b s

/-- `CMD_BWR`: command code 8 (rule R70). -/
def execCmdBwr (b : DatagramBody) (s : State) : Answer := renderCommand .bwr b s

/-- `CMD_BRW`: command code 9 (rule R70). -/
def execCmdBrw (b : DatagramBody) (s : State) : Answer := renderCommand .brw b s

/-- `CMD_LRD`: command code 10 (rule R70). -/
def execCmdLrd (b : DatagramBody) (s : State) : Answer := renderCommand .lrd b s

/-- `CMD_LWR`: command code 11 (rule R70). -/
def execCmdLwr (b : DatagramBody) (s : State) : Answer := renderCommand .lwr b s

/-- `CMD_LRW`: command code 12 (rule R70). -/
def execCmdLrw (b : DatagramBody) (s : State) : Answer := renderCommand .lrw b s

/-- `CMD_ARMW`: command code 13 (rule R70). -/
def execCmdArmw (b : DatagramBody) (s : State) : Answer := renderCommand .armw b s

/-- `CMD_FRMW`: command code 14 (rule R70). -/
def execCmdFrmw (b : DatagramBody) (s : State) : Answer := renderCommand .frmw b s

end Sys2Proof.Machine
end

