-- ==== Sys2Proof/Machine/Header.lean ====
section
/-! DEFINITION. The frame header operations (spec/41_frame_header.md). All five are pure. -/

namespace Sys2Proof.Machine

/-- The header's field values in the order of its format. -/
def headerValues (h : Header) : List Nat := [h.type.toNat, h.reserved.toNat, h.length.toNat]

/-- `hdr_u16` (rule R110). -/
def hdrU16 (h : Header) : U16 := bfPack 16 fHdr (headerValues h)

/-- `hdr_wire` (rule R110). -/
def hdrWire (h : Header) : Bytes := le16 (hdrU16 h)

/-- The header of a word (rule R114). -/
def hdrOfU16 (v : U16) : Header :=
  { type := BitVec.ofNat 4 (getField hdrTypeField v)
    reserved := BitVec.ofNat 1 (getField hdrReservedField v)
    length := BitVec.ofNat 11 (getField hdrLengthField v) }

/-- `Header.withLength` on an exact length: the header with that length and the fixed type tag, or
none from 2048 on (rules R112 and R144). -/
def headerWithLength (n : Nat) : Option Header :=
  if n ≥ Config.lenLimit then none
  else some { type := Config.hdrType, reserved := 0, length := BitVec.ofNat 11 n }

/-- `HDR_DEFAULT` (rule R111). -/
def execHdrDefault (s : State) : Answer :=
  ret (.header { type := Config.hdrType, reserved := 0, length := 0 }) s

/-- `HDR_WITHLEN` (rule R112). -/
def execHdrWithlen (n : U16) (s : State) : Answer :=
  match headerWithLength n.toNat with
  | none => raise .outOfRange n.toNat s
  | some h => ret (.header h) s

/-- `HDR_RENDER16` (rule R113). -/
def execHdrRender16 (h : Header) (s : State) : Answer := ret (.word (hdrU16 h)) s

/-- `HDR_FROM16` (rule R114): a plain extraction that validates nothing. -/
def execHdrFrom16 (v : U16) (s : State) : Answer := ret (.header (hdrOfU16 v)) s

/-- `HDR_LEN` (rule R115). -/
def execHdrLen (v : U16) (s : State) : Answer :=
  ret (.length (BitVec.ofNat 11 (getField hdrLengthField v))) s

end Sys2Proof.Machine
end

