-- ==== Sys2Proof/Machine/Frame.lean ====
section
/-! DEFINITION. The frame: datagram store, length accumulator, append and render
(spec/44_frame.md). `FRAME_NEW` and a successful `FRAME_APPEND` are the only operations that write
`FH` or `DGS` (rule R22). -/

namespace Sys2Proof.Machine

/-- The bytes of the frame (rule R145): the header, then every stored datagram in insertion order. -/
def frameBytes (s : State) : Bytes := hdrWire s.fh ++ (s.dgs.map (dgBytes s.params)).flatten

/-- `FRAME_NEW` (rule R141). -/
def execFrameNew (s : State) : Answer := ret .nothing (s.setFrame State.freshHeader [])

/-- Appending a datagram whose payload is accepted (rule R143): the sum is exact (rule R144), and
header and store change together or not at all (rule R49). -/
def appendFitting (d : Datagram) (s : State) : Answer :=
  match headerWithLength (dgLen s.params d + s.fh.length.toNat) with
  | none => raise .outOfRange (dgLen s.params d + s.fh.length.toNat) s
  | some h => ret .nothing (s.setFrame h (s.dgs ++ [d]))

/-- `FRAME_APPEND` (rule R143), after the check of the payload's length (rule R187). -/
def execFrameAppend (d : Datagram) (s : State) : Answer :=
  withPayload d.payload s (appendFitting d s)

/-- `FRAME_RENDER` (rule R145): the frame stays as it is (rule R147). -/
def execFrameRender (s : State) : Answer := ret (.bytes (frameBytes s)) s

end Sys2Proof.Machine
end

