-- ==== Sys2Proof/Machine/Registers.lean ====
section
/-! DEFINITION. The opcode table's register format rows (rules R61 to R68). A row is the packed
image of one register: its meaning is that image, made from the row's fields by the register's
format (rule R101). DESIGN CHOICE, safe: notes/assumptions/2.md. -/

namespace Sys2Proof.Machine

/-- `REG_HEADER`: the word of a header that the block emits (rule R62). -/
def execRegHeader (length : U11) (s : State) : Answer :=
  ret (.word (hdrU16 { type := Config.hdrType, reserved := 0, length := length })) s

/-- `REG_LRCM`: the LRCM word of the four fields (rule R64). -/
def execRegLrcm (l : Lrcm) (s : State) : Answer := ret (.word (lrcmU16 l)) s

/-- `REG_SMCS`: the CtrlStatus word of the nine fields (rule R66). -/
def execRegSmcs (c : SmCtrlStatus) (s : State) : Answer :=
  ret (.word (smcsU16 s.params.smcsLayout c)) s

/-- `REG_SMEN`: the Enable word of the six flags (rule R67). -/
def execRegSmen (e : SmEnable) (s : State) : Answer :=
  ret (.word (smenU16 s.params.smenLayout e)) s

/-- `REG_FMMU_CAPS`: the FMMU capability byte (rule R68). -/
def execRegFmmuCaps (write read : Bool) (s : State) : Answer := ret (.byte (fmmuCaps write read)) s

/-- `REG_FMMU_ACTV`: the FMMU activation byte (rule R68). -/
def execRegFmmuActv (active : Bool) (s : State) : Answer := ret (.byte (fmmuActv active)) s

end Sys2Proof.Machine
end

