-- ==== Sys2Proof/Machine/Dispatch.lean ====
section
/-! DEFINITION. The meaning of each instruction, one arm per constructor. -/

namespace Sys2Proof.Machine

/-- One operation, performed to completion and answered (rules R35 and R50). -/
def exec (i : Instr) (s : State) : Host.Outcome State Fault Refusal :=
  match i with
  -- the nineteen operations (rule R80)
  | .frameNew => Sys2Proof.Machine.execFrameNew s
  | .frameAppend d => Sys2Proof.Machine.execFrameAppend d s
  | .frameRender => Sys2Proof.Machine.execFrameRender s
  | .hdrDefault => Sys2Proof.Machine.execHdrDefault s
  | .hdrWithlen n => Sys2Proof.Machine.execHdrWithlen n s
  | .hdrRender16 h => Sys2Proof.Machine.execHdrRender16 h s
  | .hdrFrom16 v => Sys2Proof.Machine.execHdrFrom16 v s
  | .hdrLen v => Sys2Proof.Machine.execHdrLen v s
  | .lrcmNew more circ len => Sys2Proof.Machine.execLrcmNew more circ len s
  | .lrcmFrom16 v => Sys2Proof.Machine.execLrcmFrom16 v s
  | .lrcmRender16 l => Sys2Proof.Machine.execLrcmRender16 l s
  | .dgRender d => Sys2Proof.Machine.execDgRender d s
  | .smcsEnc c => Sys2Proof.Machine.execSmcsEnc c s
  | .smcsDec v => Sys2Proof.Machine.execSmcsDec v s
  | .smenEnc e => Sys2Proof.Machine.execSmenEnc e s
  | .smenDec v => Sys2Proof.Machine.execSmenDec v s
  | .smRender m => Sys2Proof.Machine.execSmRender m s
  | .fmmuRender f => Sys2Proof.Machine.execFmmuRender f s
  | .rawRender b => Sys2Proof.Machine.execRawRender b s
  -- the datagram command rows (rule R70)
  | .cmdNop b => Sys2Proof.Machine.execCmdNop b s
  | .cmdAprd b => Sys2Proof.Machine.execCmdAprd b s
  | .cmdApwr b => Sys2Proof.Machine.execCmdApwr b s
  | .cmdAprw b => Sys2Proof.Machine.execCmdAprw b s
  | .cmdFprd b => Sys2Proof.Machine.execCmdFprd b s
  | .cmdFpwr b => Sys2Proof.Machine.execCmdFpwr b s
  | .cmdFprw b => Sys2Proof.Machine.execCmdFprw b s
  | .cmdBrd b => Sys2Proof.Machine.execCmdBrd b s
  | .cmdBwr b => Sys2Proof.Machine.execCmdBwr b s
  | .cmdBrw b => Sys2Proof.Machine.execCmdBrw b s
  | .cmdLrd b => Sys2Proof.Machine.execCmdLrd b s
  | .cmdLwr b => Sys2Proof.Machine.execCmdLwr b s
  | .cmdLrw b => Sys2Proof.Machine.execCmdLrw b s
  | .cmdArmw b => Sys2Proof.Machine.execCmdArmw b s
  | .cmdFrmw b => Sys2Proof.Machine.execCmdFrmw b s
  -- the register format rows (rules R62, R64, R66, R67, R68)
  | .regHeader length => Sys2Proof.Machine.execRegHeader length s
  | .regLrcm l => Sys2Proof.Machine.execRegLrcm l s
  | .regSmcs c => Sys2Proof.Machine.execRegSmcs c s
  | .regSmen e => Sys2Proof.Machine.execRegSmen e s
  | .regFmmuCaps write read => Sys2Proof.Machine.execRegFmmuCaps write read s
  | .regFmmuActv active => Sys2Proof.Machine.execRegFmmuActv active s

end Sys2Proof.Machine
end

