-- ==== Sys2Proof/Machine/Step.lean ====
section
/-! DEFINITION. One step of the machine: one request accepted, performed and answered (rules R35
and R50). -/

namespace Sys2Proof.Machine

/-- The block takes the host's next request and answers it. A code that names no operation is
answered with `IllegalOp` (rule R81); bytes that stand for no operand of the operation's types
cannot be presented (rule R35) and have no meaning. With no request the block is idle and waits
(rule R200). -/
def step (s : State) : Host.Outcome State Fault Refusal :=
  match s.requests with
  | [] => .next s
  | r :: rest =>
    match Decode.decodeRequest r with
    | .ok i => exec i (s.setRequests rest)
    | .error (.illegalOp code) => raise .illegalOp code.toNat (s.setRequests rest)
    | .error e => .refused (.malformedRequest e)

/-- The state with a word of the opcode table, operand bytes zero, as the host's next request. -/
def State.withFetchWord (s : State) (nbits w : Nat) : State :=
  s.setRequests (Decode.requestOfWord nbits w :: s.requests)

end Sys2Proof.Machine
end

