-- ==== Sys2Proof/Machine/Pseudo.lean ====
section
/-! DEFINITION. The pseudo-operations of rule R83, each written as its expansion into operations of
the block. -/

namespace Sys2Proof.Machine

/-- The result that an answer carries, when its status is `OK`. -/
def resultOf : Answer → Option Result
  | .next s => match s.response with
    | some (.ok r) => some r
    | _ => none
  | .fault _ => none
  | .refused _ => none

/-- `LRCM_RAW v`: `LRCM_FROM16 v` (rule R83). -/
def lrcmRawOp (v : U16) : Instr := .lrcmFrom16 v

/-- `HDR_WIRE h`: `le16` of the result of `HDR_RENDER16 h` (rule R83). -/
def hdrWireOp (h : Header) (s : State) : Option Bytes :=
  match resultOf (exec (.hdrRender16 h) s) with
  | some (.word v) => some (le16 v)
  | _ => none

/-- `LRCM_WIRE l`: `le16` of the result of `LRCM_RENDER16 l` (rule R83). -/
def lrcmWireOp (l : Lrcm) (s : State) : Option Bytes :=
  match resultOf (exec (.lrcmRender16 l) s) with
  | some (.word v) => some (le16 v)
  | _ => none

/-- `DG_LEN d`: the length of the result of `DG_RENDER d` (rule R83). -/
def dgLenOp (d : Datagram) (s : State) : Option Nat :=
  match resultOf (exec (.dgRender d) s) with
  | some (.bytes b) => some b.length
  | _ => none

/-- `PAYLOAD_RENDER p`: the render operation of the payload's kind (rule R83). -/
def payloadRenderOp : Payload → Instr
  | .raw b => .rawRender b
  | .sm m => .smRender m
  | .fmmu f => .fmmuRender f

/-- Operations one after another, stopping at the first status that is not `OK` (rule R83). -/
def runOps : List Instr → State → Answer
  | [], s => .next s
  | i :: is, s =>
    match exec i s with
    | .next t => match t.response with
      | some (.ok _) => runOps is t
      | _ => .next t
    | .fault e => .fault e
    | .refused e => .refused e

/-- `FRAME_BUILD d0, d1, ...`: `FRAME_NEW`, one `FRAME_APPEND` for each datagram, `FRAME_RENDER`,
stopping at the first status that is not `OK` (rule R83). -/
def frameBuild (ds : List Datagram) (s : State) : Answer :=
  runOps (.frameNew :: (ds.map .frameAppend ++ [.frameRender])) s

end Sys2Proof.Machine
end

