-- ==== Sys2Proof/Safety.lean ====
section
/-! DEFINITION. What a sound state is: the state invariant of rule R21. -/

namespace Sys2Proof.Machine

/-- The sum of the rendered lengths of the stored datagrams (rule R21). -/
def storedLength (s : State) : Nat := (s.dgs.map (dgLen s.params)).sum

/-- The state invariant (rule R21), line by line. -/
abbrev FrameInv (s : State) : Prop :=
  s.fh.type = 1 ∧ s.fh.reserved = 0 ∧ s.fh.length.toNat = storedLength s ∧
    s.fh.length.toNat ≤ 2047 ∧ s.dgs.length ≤ Config.dgCap

end Sys2Proof.Machine
end

