-- ==== Sys2Proof/Certificates/Slice0/Obligations.lean ====
section
/-! DEFINITION. What is stated about the model, for the provers. A statement about the state the
next step leaves writes that state out as the state before with the changed fields named: every
field that is not named (the frame, the parameters, the requests) is unchanged. The block has no
register numbers, no flags, no program counter and no addressable memory (rules R25, R26, R40), so
the frame of an operation is that of `FH`, `DGS`, the parameters and the requests. -/

open Sys2Proof Sys2Proof.Machine

namespace Sys2Proof.Certificates

/-- Bytes 1 to `11 + N` of a rendered datagram, byte by byte (rule R131). -/
def wireAfterCommand (p : Params) (b : DatagramBody) : Bytes :=
  [b.index, b.address.extractLsb' 16 8, b.address.extractLsb' 24 8, b.address.extractLsb' 0 8,
    b.address.extractLsb' 8 8, b.lrcm.len.extractLsb' 0 8,
    BitVec.ofBool b.lrcm.more ++ BitVec.ofBool b.lrcm.circ ++ b.lrcm.reserved ++
      b.lrcm.len.extractLsb' 8 3,
    b.irq.extractLsb' 8 8, b.irq.extractLsb' 0 8] ++
  payloadBytes p b.payload ++ [b.wkc.extractLsb' 0 8, b.wkc.extractLsb' 8 8]

/-- The fifteen command rows of the table with their codes (rule R70). -/
def commandRows : List ((DatagramBody → Instr) × U8) :=
  [(.cmdNop, 0), (.cmdAprd, 1), (.cmdApwr, 2), (.cmdAprw, 3), (.cmdFprd, 4), (.cmdFpwr, 5),
   (.cmdFprw, 6), (.cmdBrd, 7), (.cmdBwr, 8), (.cmdBrw, 9), (.cmdLrd, 10), (.cmdLwr, 11),
   (.cmdLrw, 12), (.cmdArmw, 13), (.cmdFrmw, 14)]

/-- An operation that neither reads nor writes the frame (rule R20): all but the three `FRAME_*`. -/
def readsNoFrame : Instr → Prop
  | .frameNew => False
  | .frameAppend _ => False
  | .frameRender => False
  | _ => True

/-- One flag as its bit of a word, the other bits zero. -/
def flagBit (b : Bool) (k : Nat) : U16 := (BitVec.ofBool b).setWidth 16 <<< k

end Sys2Proof.Certificates

open Sys2Proof.Certificates

/-! ### Reset and the step -/

/-- Reset leaves `FH = 0x1000` and an empty store, the state `FRAME_NEW` leaves, and then waits
(rules R200 and R201); and in every state without an outstanding request a step changes nothing.
The spec marks that reset gives these values as its own choice (D11), and that an idle step changes
nothing is the model's (notes/assumptions/8.md). -/
def Obligations.ResetLeavesAnEmptyFrameAndIdles : Prop :=
  hdrU16 State.reset.fh = 0x1000#16 ∧ State.reset.dgs = [] ∧ step State.reset = .next State.reset ∧
  (∀ s : State, s.requests = [] → step s = .next s) ∧
  ∀ s : State, ∃ t, exec .frameNew s = .next t ∧ (resetBlock s).fh = t.fh ∧
    (resetBlock s).dgs = t.dgs ∧ (resetBlock s).params = s.params ∧ hdrU16 (resetBlock s).fh = 0x1000#16

/-- The reset state meets the state invariant (rule R21). -/
def Obligations.ResetMeetsTheFrameInvariant : Prop :=
  FrameInv State.reset ∧ ∀ s : State, FrameInv (resetBlock s)

/-- The state invariant of rule R21 holds at reset and every step keeps it, whatever the status. -/
def Obligations.EveryStepKeepsTheFrameInvariant : Prop :=
  FrameInv State.reset ∧ ∀ s t : State, FrameInv s → step s = .next t → FrameInv t

/-- When the next request's bytes decode to an instruction, the step is that instruction on the
state from which this request is taken away (rules R35 and R50; the request port's bytes are the
model's, notes/assumptions/1.md). -/
def Obligations.StepRunsTheDecodedRequest : Prop :=
  ∀ (s : State) (r : Request) (rest : List Request) (i : Instr),
    s.requests = r :: rest → Decode.decodeRequest r = .ok i →
    step s = exec i { s with requests := rest }

/-- A word of the opcode table placed as the next request is the instruction that the next step
runs (notes/assumptions/3.md). -/
def Obligations.StepRunsTheTableWord : Prop :=
  ∀ (s : State) (nbits w : Nat) (i : Instr), decodeTableWord nbits w = some i →
    step (s.withFetchWord nbits w) = exec i s

/-- A request whose operation-select code is none of the nineteen is answered with `IllegalOp`,
which reports the code, whatever bytes follow, and changes nothing else (rules R81 and R187; the
spec marks the refusal as its own decision D16). -/
def Obligations.UnknownOperationCodeIsIllegalOp : Prop :=
  ∀ (s : State) (code : U8) (operands : Bytes) (rest : List Request),
    code.toNat ∉ [0x00, 0x01, 0x02, 0x10, 0x11, 0x12, 0x13, 0x14, 0x20, 0x21, 0x22, 0x30, 0x40, 0x41,
      0x42, 0x43, 0x44, 0x50, 0x60] →
    s.requests = ⟨.opsel, code :: operands⟩ :: rest →
    step s =
      .next { s with requests := rest, response := some (.raised .illegalOp code.toNat) }

/-- Every operation terminates with one response (rules R196 and R214), to a state that keeps the
parameters and the outstanding requests. -/
def Obligations.EveryOperationIsAnswered : Prop :=
  ∀ (i : Instr) (s : State), ∃ (t : State) (r : Response), exec i s = .next t ∧
    t.response = some r ∧ t.params = s.params ∧ t.requests = s.requests

/-- A step stops only on request bytes that are no operation with operands of its types, which the
interface cannot present (rule R35; the model's choice, notes/assumptions/1.md); it never faults. -/
def Obligations.StepStopsOnlyOnAMalformedRequest : Prop :=
  ∀ s : State, (∃ t, step s = .next t) ∨
    ∃ (r : Request) (rest : List Request) (e : DecodeError), s.requests = r :: rest ∧
      Decode.decodeRequest r = .error e ∧ (∀ code, e ≠ .illegalOp code) ∧
      step s = .refused (.malformedRequest e)

/-! ### Who writes the state, and refusals -/

/-- Rule R22: `FH` and `DGS` are written by `FRAME_NEW` and by a successful `FRAME_APPEND` only,
both together; no operation writes one of them alone, removes, reorders or changes a stored
datagram. -/
def Obligations.OnlyNewAndAppendWriteTheFrame : Prop :=
  ∀ (i : Instr) (s t : State), exec i s = .next t →
    (t.fh = s.fh ∧ t.dgs = s.dgs) ∨
    (i = .frameNew ∧ t.fh = { type := 1, reserved := 0, length := 0 } ∧ t.dgs = []) ∨
    (∃ d, i = .frameAppend d ∧ t.response = some (.ok .nothing) ∧ t.dgs = s.dgs ++ [d] ∧
      t.fh.type = 1 ∧ t.fh.reserved = 0 ∧
      t.fh.length.toNat = s.fh.length.toNat + 12 + (payloadBytes s.params d.payload).length)

/-- Rule R186: a refused request leaves `FH` and `DGS` as they were, and every later operation is
performed as if it had never been issued. -/
def Obligations.RefusalLeavesNoTrace : Prop :=
  ∀ (s t : State) (r : Request) (rest : List Request) (c : Cause) (n : Nat),
    s.requests = r :: rest → step s = .next t → t.response = some (.raised c n) →
    t.fh = s.fh ∧ t.dgs = s.dgs ∧ t.params = s.params ∧ t.requests = rest ∧
    ∀ j : Instr, exec j t = exec j { s with requests := rest }

/-- Rules R182, R112 and R143: `OutOfRange` is the answer of `HDR_WITHLEN` with `n >= 2048` and of
`FRAME_APPEND` whose exact sum reaches 2048, and of nothing else. That a raw payload over a finite
`PAYLOAD_MAX` is refused before (rules R184 and R187) is the spec's own decision D3, and the value
reported is that of rule R181's table, which a model may drop (notes/assumptions/10.md). -/
def Obligations.OutOfRangeExactly : Prop :=
  ∀ (i : Instr) (s t : State) (n : Nat), exec i s = .next t →
    (t.response = some (.raised .outOfRange n) ↔
      (∃ m : U16, i = .hdrWithlen m ∧ 2048 ≤ m.toNat ∧ n = m.toNat) ∨
      (∃ d, i = .frameAppend d ∧ i.wf s.params = true ∧
        2048 ≤ (dgBytes s.params d).length + s.fh.length.toNat ∧
        n = (dgBytes s.params d).length + s.fh.length.toNat))

/-- Rule R183: `LenOverwidth` is the answer of `LRCM_NEW` with `len >= 2048`, where the parameter
`LRCM_OVERWIDTH` is `reject` (the spec's own decision D4), and of nothing else. -/
def Obligations.LenOverwidthExactly : Prop :=
  ∀ (i : Instr) (s t : State) (n : Nat), exec i s = .next t →
    (t.response = some (.raised .lenOverwidth n) ↔
      ∃ (more circ : Bool) (len : U16), i = .lrcmNew more circ len ∧ 2048 ≤ len.toNat ∧
        s.params.lrcmOverwidth = .reject ∧ n = len.toNat)

/-- Rules R184 and R187: an operation that carries a raw payload longer than a finite `PAYLOAD_MAX`
is refused with `PayloadTooLong` before any other check, and no other operation is (the spec's own
decision D3); no operation answers `IllegalOp`, which is the request decoder's. -/
def Obligations.PayloadTooLongExactlyAndFirst : Prop :=
  (∀ (i : Instr) (s t : State), exec i s = .next t →
    ((∃ n, t.response = some (.raised .payloadTooLong n)) ↔ i.wf s.params = false) ∧
    ∀ n, t.response ≠ some (.raised .illegalOp n)) ∧
  ∀ (s : State) (b : Bytes) (m : Nat) (d : Datagram), s.params.payloadMax = some m →
    m < b.length → d.payload = .raw b →
    exec (.rawRender b) s = .next { s with response := some (.raised .payloadTooLong b.length) } ∧
    exec (.dgRender d) s = .next { s with response := some (.raised .payloadTooLong b.length) } ∧
    exec (.frameAppend d) s = .next { s with response := some (.raised .payloadTooLong b.length) }

/-! ### Purity -/

/-- Rules R20 and R202: an operation that is no `FRAME_*` answers by its operands and the parameters
alone; `FRAME_RENDER` by `FH`, `DGS` and the parameters alone; and no operation reads the response
of an earlier one (rule R26) or the outstanding requests. -/
def Obligations.AnswersDependOnNothingElse : Prop :=
  (∀ (i : Instr) (s s' t t' : State), readsNoFrame i → s.params = s'.params →
    exec i s = .next t → exec i s' = .next t' → t.response = t'.response) ∧
  ∀ (i : Instr) (s s' t t' : State), s.params = s'.params → s.fh = s'.fh → s.dgs = s'.dgs →
    exec i s = .next t → exec i s' = .next t' →
    t.response = t'.response ∧ t.fh = t'.fh ∧ t.dgs = t'.dgs

/-- Rule R48: every operation but `FRAME_NEW` and `FRAME_APPEND` leaves the frame as it was; every
operation but `FRAME_APPEND`, repeated with the same operands, gives the same response and changes
nothing; each successful `FRAME_APPEND` stores one more datagram. -/
def Obligations.RepeatingAnOperation : Prop :=
  (∀ (i : Instr) (s t : State), i ≠ .frameNew → (∀ d, i ≠ .frameAppend d) →
    exec i s = .next t → t.fh = s.fh ∧ t.dgs = s.dgs) ∧
  (∀ (i : Instr) (s t : State), (∀ d, i ≠ .frameAppend d) → exec i s = .next t →
    exec i t = .next t) ∧
  ∀ (d : Datagram) (s t : State), exec (.frameAppend d) s = .next t →
    t.response = some (.ok .nothing) → t.dgs.length = s.dgs.length + 1

/-! ### Frame header -/

/-- Rules R111 and R112: `HDR_DEFAULT` gives the header of type 1 and length 0; `HDR_WITHLEN` gives
the header of its length below 2048 and `OutOfRange` from 2048 on. -/
def Obligations.HeaderConstructors : Prop :=
  ∀ s : State,
    exec .hdrDefault s =
      .next { s with response := some (.ok (.header { type := 1, reserved := 0, length := 0 })) } ∧
    (∀ (n : U16) (l : U11), n.toNat = l.toNat → exec (.hdrWithlen n) s =
      .next { s with response := some (.ok (.header { type := 1, reserved := 0, length := l })) }) ∧
    (∀ n : U16, 2048 ≤ n.toNat → exec (.hdrWithlen n) s =
      .next { s with response := some (.raised .outOfRange n.toNat) })

/-- Rules R110 and R113: `HDR_RENDER16` gives the type at bits 15:12, the reserved bit at 11 and the
length at 10:0, or-ed together. -/
def Obligations.HeaderRender16PacksTheFields : Prop :=
  ∀ (h : Header) (s : State), exec (.hdrRender16 h) s =
    .next { s with response := some (.ok (.word
      ((h.type.setWidth 16 <<< 12) ||| (h.reserved.setWidth 16 <<< 11) ||| h.length.setWidth 16))) }

/-- Rules R114 and R115: `HDR_FROM16` gives bits 15:12, 11 and 10:0 of any word as found, and
`HDR_LEN` bits 10:0 (that nothing is validated, and the definition of `HDR_LEN`, are the spec's own
decisions D8 and D18). -/
def Obligations.HeaderFrom16ExtractsTheFields : Prop :=
  ∀ (v : U16) (s : State),
    exec (.hdrFrom16 v) s = .next { s with response := some (.ok (.header
      { type := v.extractLsb' 12 4, reserved := v.extractLsb' 11 1, length := v.extractLsb' 0 11 })) } ∧
    exec (.hdrLen v) s = .next { s with response := some (.ok (.length (v.extractLsb' 0 11))) }

/-- Rule R116: for every length below 2048, the header with that length renders to `0x1000 + len`
(the spec's inference) and its length is read back by `HDR_LEN`; from 2048 on it is refused. Also,
rendering a decoded word gives the word back (rule R105 with every bit assigned). -/
def Obligations.HeaderRoundTrips : Prop :=
  ∀ s : State,
    (∀ len : U16, len.toNat < 2048 → ∃ (h : Header) (v : U16) (l : U11),
      exec (.hdrWithlen len) s = .next { s with response := some (.ok (.header h)) } ∧
      exec (.hdrRender16 h) s = .next { s with response := some (.ok (.word v)) } ∧
      exec (.hdrLen v) s = .next { s with response := some (.ok (.length l)) } ∧
      l.toNat = len.toNat ∧ v = 0x1000 + len) ∧
    (∀ len : U16, 2048 ≤ len.toNat → exec (.hdrWithlen len) s =
      .next { s with response := some (.raised .outOfRange len.toNat) }) ∧
    (∀ v : U16, ∃ h : Header,
      exec (.hdrFrom16 v) s = .next { s with response := some (.ok (.header h)) } ∧
      exec (.hdrRender16 h) s = .next { s with response := some (.ok (.word v)) })

/-! ### LRCM -/

/-- Rule R121: `LRCM_NEW` keeps its operands, reserved bits zero, for a length below 2048; from 2048
on it answers `LenOverwidth`, or under the policy `mask` the length's low eleven bits (the two
policies are the spec's own decision D4). -/
def Obligations.LrcmNewKeepsItsOperands : Prop :=
  ∀ (more circ : Bool) (len : U16) (s : State),
    (∀ l : U11, len.toNat = l.toNat → exec (.lrcmNew more circ len) s =
      .next { s with response := some (.ok (.lrcm
        { more := more, circ := circ, reserved := 0, len := l })) }) ∧
    (2048 ≤ len.toNat → s.params.lrcmOverwidth = .reject → exec (.lrcmNew more circ len) s =
      .next { s with response := some (.raised .lenOverwidth len.toNat) }) ∧
    (2048 ≤ len.toNat → s.params.lrcmOverwidth = .mask → exec (.lrcmNew more circ len) s =
      .next { s with response := some (.ok (.lrcm
        { more := more, circ := circ, reserved := 0, len := len.extractLsb' 0 11 })) })

/-- Rule R122: `LRCM_FROM16` gives more from bit 15, circ from bit 14, reserved from bits 13:11 and
len from bits 10:0 of any word, non-zero reserved bits kept. -/
def Obligations.LrcmFrom16ExtractsTheFields : Prop :=
  ∀ (v : U16) (s : State), exec (.lrcmFrom16 v) s = .next { s with response := some (.ok (.lrcm
    { more := v.getLsbD 15, circ := v.getLsbD 14, reserved := v.extractLsb' 11 3,
      len := v.extractLsb' 0 11 })) }

/-- Rules R120 and R123: `LRCM_RENDER16` gives the four fields at their places, or-ed together. -/
def Obligations.LrcmRender16PacksTheFields : Prop :=
  ∀ (l : Lrcm) (s : State), exec (.lrcmRender16 l) s = .next { s with response := some (.ok (.word
    (flagBit l.more 15 ||| flagBit l.circ 14 ||| (l.reserved.setWidth 16 <<< 11) |||
      l.len.setWidth 16))) }

/-- Rule R124: an LRCM made from flags and a length below 2048 survives rendering and decoding, with
reserved 0; rendering a decoded word gives the word back; and the four words of the two flags at
length 0 are `0x0000`, `0x4000`, `0x8000`, `0xC000` (the last two are the spec's inferences). -/
def Obligations.LrcmRoundTrips : Prop :=
  ∀ s : State,
    (∀ (more circ : Bool) (len : U16), len.toNat < 2048 → ∃ (l : Lrcm) (v : U16),
      exec (.lrcmNew more circ len) s = .next { s with response := some (.ok (.lrcm l)) } ∧
      exec (.lrcmRender16 l) s = .next { s with response := some (.ok (.word v)) } ∧
      exec (.lrcmFrom16 v) s = .next { s with response := some (.ok (.lrcm l)) } ∧
      l.more = more ∧ l.circ = circ ∧ l.reserved = 0 ∧ l.len.toNat = len.toNat) ∧
    (∀ v : U16, ∃ l : Lrcm,
      exec (.lrcmFrom16 v) s = .next { s with response := some (.ok (.lrcm l)) } ∧
      exec (.lrcmRender16 l) s = .next { s with response := some (.ok (.word v)) }) ∧
    (∀ more circ : Bool, ∃ l : Lrcm,
      exec (.lrcmNew more circ 0) s = .next { s with response := some (.ok (.lrcm l)) } ∧
      exec (.lrcmRender16 l) s = .next { s with response := some (.ok (.word
        (match more, circ with
          | false, false => 0x0000#16 | false, true => 0x4000#16
          | true, false => 0x8000#16 | true, true => 0xC000#16))) })

/-! ### Datagram -/

/-- Rules R131, R132 and R71: `DG_RENDER` of any datagram whose payload is within `PAYLOAD_MAX`
gives its bytes, byte by byte: the command verbatim, the index, the address upper half first and
each half little-endian (rule R44), the LRCM little-endian, the IRQ big-endian (rule R135), the
payload's own bytes, and the working counter little-endian. -/
def Obligations.DatagramRenderByteByByte : Prop :=
  ∀ (command : U8) (b : DatagramBody) (s : State), b.payload.fits s.params = true →
    exec (.dgRender (datagramOf command b)) s = .next { s with
      response := some (.ok (.bytes (command :: wireAfterCommand s.params b))) }

/-- Rule R133: a rendered datagram has twelve bytes beside its payload's; 20 bytes with a
SyncManager payload and 25 with an FMMU payload; `dg_len` is that number (the sum is the spec's
inference). -/
def Obligations.DatagramLength : Prop :=
  ∀ (d : Datagram) (s : State),
    dgLen s.params d = 12 + (payloadBytes s.params d.payload).length ∧
    (∀ b, d.payload = .raw b → dgLen s.params d = 12 + b.length) ∧
    (∀ m, d.payload = .sm m → dgLen s.params d = 20) ∧
    (∀ f, d.payload = .fmmu f → dgLen s.params d = 25) ∧
    (d.payload.fits s.params = true → dgLenOp d s = some (dgLen s.params d))

/-- Rule R134: the LRCM's length field is compared with nothing: datagrams that differ in their
LRCM alone have the same rendered length, and rendering and appending either has the same status
and the same effect on the accumulator. -/
def Obligations.LrcmLengthIsNotCompared : Prop :=
  ∀ (d : Datagram) (l : Lrcm) (s : State),
    dgLen s.params { d with lrcm := l } = dgLen s.params d ∧
    (∃ t t', exec (.dgRender d) s = .next t ∧ exec (.dgRender { d with lrcm := l }) s = .next t' ∧
      t.response.map Response.code = t'.response.map Response.code) ∧
    (∃ t t', exec (.frameAppend d) s = .next t ∧
      exec (.frameAppend { d with lrcm := l }) s = .next t' ∧ t.response = t'.response ∧
      t.fh = t'.fh ∧ t.dgs.length = t'.dgs.length)

/-- Rules R70 and R131: each command row of the table renders its datagram with the row's code as
byte 0 and no other effect (that a row is run at all is the model's choice,
notes/assumptions/2.md). -/
def Obligations.CommandRowsRenderTheirCode : Prop :=
  ∀ row ∈ commandRows, ∀ (b : DatagramBody) (s : State), b.payload.fits s.params = true →
    exec (row.1 b) s = .next { s with
      response := some (.ok (.bytes (row.2 :: wireAfterCommand s.params b))) }

/-! ### Frame -/

/-- Rule R141: `FRAME_NEW` leaves the default header and an empty store. -/
def Obligations.FrameNewEmptiesTheFrame : Prop :=
  ∀ s : State, exec .frameNew s = .next { s with
    fh := { type := 1, reserved := 0, length := 0 }, dgs := [], response := some (.ok .nothing) }

/-- Rule R143: `FRAME_APPEND` of a datagram of rendered length L to a frame of length H stores it
and gives length H + L where that is below 2048, and changes nothing and answers `OutOfRange` where
it is not. (A raw payload over a finite `PAYLOAD_MAX` is refused before.) The sum is exact, however
long the payload (rule R144). -/
def Obligations.FrameAppendStoresOrRefuses : Prop :=
  ∀ (d : Datagram) (s : State), d.payload.fits s.params = true →
    (∀ l : U11, 12 + (payloadBytes s.params d.payload).length + s.fh.length.toNat = l.toNat →
      exec (.frameAppend d) s = .next { s with
        fh := { type := 1, reserved := 0, length := l }, dgs := s.dgs ++ [d],
        response := some (.ok .nothing) }) ∧
    (2048 ≤ 12 + (payloadBytes s.params d.payload).length + s.fh.length.toNat →
      exec (.frameAppend d) s = .next { s with response := some (.raised .outOfRange
        (12 + (payloadBytes s.params d.payload).length + s.fh.length.toNat)) })

/-- Rules R145 and R147: `FRAME_RENDER` gives the two header bytes, little-endian, and then the
bytes of every stored datagram in insertion order, and the frame stays as it is. -/
def Obligations.FrameRenderConcatenatesInOrder : Prop :=
  ∀ s : State, exec .frameRender s = .next { s with response := some (.ok (.bytes
    (s.fh.length.extractLsb' 0 8 :: (s.fh.type ++ s.fh.reserved ++ s.fh.length.extractLsb' 8 3) ::
      s.dgs.flatMap fun d => d.command :: wireAfterCommand s.params (Decode.bodyOf d)))) }

/-- Rule R146: in a sound state the rendered frame has `2 + FH.length` bytes, its first two bytes
are the length's low byte and `0x10` or-ed with its high bits, `HDR_LEN` of them is `FH.length`,
and the bytes of each stored datagram stand at its offset (rule R41). Part (a) is the source's, the
rest the spec's inference. -/
def Obligations.RenderedFrameLayout : Prop :=
  ∀ s : State, FrameInv s → ∃ out : Bytes,
    exec .frameRender s = .next { s with response := some (.ok (.bytes out)) } ∧
    out.length = 2 + s.fh.length.toNat ∧
    (∃ (b0 b1 : U8) (tail : Bytes), out = b0 :: b1 :: tail ∧ b0 = s.fh.length.extractLsb' 0 8 ∧
      b1 = 0x10 ||| (s.fh.length.extractLsb' 8 3).setWidth 8 ∧
      exec (.hdrLen (b1 ++ b0)) s = .next { s with response := some (.ok (.length s.fh.length)) }) ∧
    ∀ (k : Nat) (d : Datagram), s.dgs[k]? = some d →
      (out.drop (2 + ((s.dgs.take k).map (dgLen s.params)).sum)).take (dgLen s.params d) =
        dgBytes s.params d

/-- Rule R8: in a sound state whose store holds 170 datagrams every append is refused, so the store
never needs one more place (the spec's inference). -/
def Obligations.TheStoreIsNeverFoundFull : Prop :=
  ∀ (s : State) (d : Datagram), FrameInv s → s.dgs.length = 170 →
    ∃ c n, exec (.frameAppend d) s = .next { s with response := some (.raised c n) } ∧
      (c = .outOfRange ∨ c = .payloadTooLong)

/-- Rule R83's `FRAME_BUILD` (the spec's own pseudo-operation, D21), from any state: datagrams whose
rendered lengths sum to less than 2048 build the frame that holds them in order, and the answer is
the header of that sum and their bytes in order. -/
def Obligations.FrameBuildYieldsTheWholeFrame : Prop :=
  ∀ (ds : List Datagram) (s : State) (l : U11), (∀ d ∈ ds, d.payload.fits s.params = true) →
    (ds.map (dgLen s.params)).sum = l.toNat →
    frameBuild ds s = .next { s with
      fh := { type := 1, reserved := 0, length := l }, dgs := ds,
      response := some (.ok (.bytes
        (l.extractLsb' 0 8 :: (2#5 ++ l.extractLsb' 8 3) ::
          ds.flatMap fun d => d.command :: wireAfterCommand s.params (Decode.bodyOf d)))) }

/-- `FRAME_BUILD` stops at the first append that is refused, with the datagrams before it stored
and the refusal as its answer, whichever refusal it is (rules R83, R143 and R212). The datagrams
`ds` are the ones before: their appends are accepted, since their payloads fit and their lengths sum
to less than 2048. Then `d` is refused with `OutOfRange` where its payload fits and the sum reaches
2048, and with `PayloadTooLong` where its raw payload exceeds a finite `PAYLOAD_MAX`, whatever the
sum (rules R184 and R187, the spec's own decision D3); no append is refused otherwise. -/
def Obligations.FrameBuildStopsAtTheFirstRefusal : Prop :=
  ∀ (ds rest : List Datagram) (d : Datagram) (s : State) (l : U11),
    (∀ x ∈ ds, x.payload.fits s.params = true) → (ds.map (dgLen s.params)).sum = l.toNat →
    (d.payload.fits s.params = true → 2048 ≤ dgLen s.params d + l.toNat →
      frameBuild (ds ++ d :: rest) s = .next { s with
        fh := { type := 1, reserved := 0, length := l }, dgs := ds,
        response := some (.raised .outOfRange (dgLen s.params d + l.toNat)) }) ∧
    (∀ (b : Bytes) (m : Nat), d.payload = .raw b → s.params.payloadMax = some m → m < b.length →
      frameBuild (ds ++ d :: rest) s = .next { s with
        fh := { type := 1, reserved := 0, length := l }, dgs := ds,
        response := some (.raised .payloadTooLong b.length) })

/-! ### Generic bit fields -/

/-- Rules R101 and R102: packing puts each field's value at the field's own bits, whatever the other
fields are, and leaves every unassigned bit 0; unpacking gives, in the order of the format, the
value of each field's bits of any word. For every format of any width. -/
def Obligations.PackPutsEachFieldAtItsOwnBits : Prop :=
  ∀ (n : Nat) (F : Format) (xs : List Nat), F.Wf n →
    List.Forall₂ (fun f x => x < 2 ^ f.width) F xs →
    (∀ (k : Nat) (f : Field) (x : Nat), F[k]? = some f → xs[k]? = some x →
      ((bfPack n F xs).extractLsb' f.lo f.width).toNat = x) ∧
    bfPack n F xs &&& ~~~ bfAssigned n F = 0 ∧
    ∀ v : BitVec n, bfUnpack F v = F.map fun f => (v.extractLsb' f.lo f.width).toNat

/-- Rule R104: unpacking a packed word gives the fields back, for every format of any width and all
values within their widths. -/
def Obligations.UnpackUndoesPack : Prop :=
  ∀ (n : Nat) (F : Format) (xs : List Nat), F.Wf n →
    List.Forall₂ (fun f x => x < 2 ^ f.width) F xs → bfUnpack F (bfPack n F xs) = xs

/-- Rule R105: packing an unpacked word gives the word's assigned bits, and so the word itself
exactly where its unassigned bits are 0. -/
def Obligations.PackAfterUnpackKeepsTheAssignedBits : Prop :=
  ∀ (n : Nat) (F : Format) (v : BitVec n), F.Wf n →
    bfPack n F (bfUnpack F v) = v &&& bfAssigned n F ∧
    (bfPack n F (bfUnpack F v) = v ↔ v &&& ~~~ bfAssigned n F = 0)

/-! ### SyncManager -/

/-- Rules R101, R150, R151 and R153: under every layout `SMCS_ENC` and `SMEN_ENC` give the fields
shifted to the layout's places and or-ed. -/
def Obligations.SyncManagerRegistersPack : Prop :=
  ∀ (c : SmCtrlStatus) (e : SmEnable) (s : State),
    exec (.smcsEnc c) s = .next { s with response := some (.ok (.word
      ((c.bufferState.setWidth 16 <<< s.params.smcsLayout.bufferState) |||
       flagBit c.visibleBufferState s.params.smcsLayout.visibleBufferState |||
       flagBit c.canReadIrq s.params.smcsLayout.canReadIrq |||
       flagBit c.canWriteIrq s.params.smcsLayout.canWriteIrq |||
       flagBit c.triggerWatchdog s.params.smcsLayout.triggerWatchdog |||
       flagBit c.pdiIrq s.params.smcsLayout.pdiIrq |||
       flagBit c.ecatIrq s.params.smcsLayout.ecatIrq |||
       (c.access.setWidth 16 <<< s.params.smcsLayout.access) |||
       (c.opMode.setWidth 16 <<< s.params.smcsLayout.opMode)))) } ∧
    exec (.smenEnc e) s = .next { s with response := some (.ok (.word
      (flagBit e.repeatAck s.params.smenLayout.repeatAck |||
       flagBit e.deactivate s.params.smenLayout.deactivate |||
       flagBit e.latchChangePdi s.params.smenLayout.latchChangePdi |||
       flagBit e.latchChangeEcat s.params.smenLayout.latchChangeEcat |||
       flagBit e.repeatRequest s.params.smenLayout.repeatRequest |||
       flagBit e.enable s.params.smenLayout.enable))) }

/-- Rules R102, R152 and R154: under every layout `SMCS_DEC` and `SMEN_DEC` give each field from the
layout's bits of any word; the other bits are lost (D8). -/
def Obligations.SyncManagerRegistersUnpack : Prop :=
  ∀ (v : U16) (s : State),
    exec (.smcsDec v) s = .next { s with response := some (.ok (.ctrlStatus
      { bufferState := v.extractLsb' s.params.smcsLayout.bufferState 2
        visibleBufferState := v.getLsbD s.params.smcsLayout.visibleBufferState
        canReadIrq := v.getLsbD s.params.smcsLayout.canReadIrq
        canWriteIrq := v.getLsbD s.params.smcsLayout.canWriteIrq
        triggerWatchdog := v.getLsbD s.params.smcsLayout.triggerWatchdog
        pdiIrq := v.getLsbD s.params.smcsLayout.pdiIrq
        ecatIrq := v.getLsbD s.params.smcsLayout.ecatIrq
        access := v.extractLsb' s.params.smcsLayout.access 2
        opMode := v.extractLsb' s.params.smcsLayout.opMode 2 })) } ∧
    exec (.smenDec v) s = .next { s with response := some (.ok (.enable
      { repeatAck := v.getLsbD s.params.smenLayout.repeatAck
        deactivate := v.getLsbD s.params.smenLayout.deactivate
        latchChangePdi := v.getLsbD s.params.smenLayout.latchChangePdi
        latchChangeEcat := v.getLsbD s.params.smenLayout.latchChangeEcat
        repeatRequest := v.getLsbD s.params.smenLayout.repeatRequest
        enable := v.getLsbD s.params.smenLayout.enable })) }

/-- Rule R156: under every admitted layout each flag of an encoded Enable and CtrlStatus word is its
own operand and nothing else's (not reproducing the source's defect is the spec's own decision D7). -/
def Obligations.EveryFlagHasItsOwnBit : Prop :=
  ∀ (c : SmCtrlStatus) (e : SmEnable) (s : State), s.params.Wf → ∃ v w : U16,
    exec (.smcsEnc c) s = .next { s with response := some (.ok (.word v)) } ∧
    exec (.smenEnc e) s = .next { s with response := some (.ok (.word w)) } ∧
    v.getLsbD s.params.smcsLayout.visibleBufferState = c.visibleBufferState ∧
    v.getLsbD s.params.smcsLayout.canReadIrq = c.canReadIrq ∧
    v.getLsbD s.params.smcsLayout.canWriteIrq = c.canWriteIrq ∧
    v.getLsbD s.params.smcsLayout.triggerWatchdog = c.triggerWatchdog ∧
    v.getLsbD s.params.smcsLayout.pdiIrq = c.pdiIrq ∧
    v.getLsbD s.params.smcsLayout.ecatIrq = c.ecatIrq ∧
    v &&& ~~~ bfAssigned 16 (fSmcs s.params.smcsLayout) = 0 ∧
    w.getLsbD s.params.smenLayout.repeatAck = e.repeatAck ∧
    w.getLsbD s.params.smenLayout.deactivate = e.deactivate ∧
    w.getLsbD s.params.smenLayout.latchChangePdi = e.latchChangePdi ∧
    w.getLsbD s.params.smenLayout.latchChangeEcat = e.latchChangeEcat ∧
    w.getLsbD s.params.smenLayout.repeatRequest = e.repeatRequest ∧
    w.getLsbD s.params.smenLayout.enable = e.enable ∧
    w &&& ~~~ bfAssigned 16 (fSmen s.params.smenLayout) = 0

/-- Rule R157: under every admitted layout decoding an encoded record gives the record back,
encoding a decoded word gives its assigned bits, and the CtrlStatus pattern `0x3A56` survives
decoding and encoding. -/
def Obligations.SyncManagerRegistersRoundTrip : Prop :=
  ∀ s : State, s.params.Wf →
    (∀ c : SmCtrlStatus, ∃ v : U16,
      exec (.smcsEnc c) s = .next { s with response := some (.ok (.word v)) } ∧
      exec (.smcsDec v) s = .next { s with response := some (.ok (.ctrlStatus c)) }) ∧
    (∀ e : SmEnable, ∃ v : U16,
      exec (.smenEnc e) s = .next { s with response := some (.ok (.word v)) } ∧
      exec (.smenDec v) s = .next { s with response := some (.ok (.enable e)) }) ∧
    (∀ v : U16, ∃ c : SmCtrlStatus,
      exec (.smcsDec v) s = .next { s with response := some (.ok (.ctrlStatus c)) } ∧
      exec (.smcsEnc c) s = .next { s with response := some (.ok (.word
        (v &&& bfAssigned 16 (fSmcs s.params.smcsLayout)))) }) ∧
    (∀ v : U16, ∃ e : SmEnable,
      exec (.smenDec v) s = .next { s with response := some (.ok (.enable e)) } ∧
      exec (.smenEnc e) s = .next { s with response := some (.ok (.word
        (v &&& bfAssigned 16 (fSmen s.params.smenLayout)))) }) ∧
    (∃ c : SmCtrlStatus,
      exec (.smcsDec 0x3A56) s = .next { s with response := some (.ok (.ctrlStatus c)) } ∧
      exec (.smcsEnc c) s = .next { s with response := some (.ok (.word 0x3A56)) })

/-- The default layouts meet what rules R66 and R67 ask of a layout, and assign the bits `0x3B7F`
and `0x03C3`; the fixed formats assign the bits of rule R106 (the default positions are the spec's
own choice, D5 and D6, from general knowledge: notes/assumptions/5.md). -/
def Obligations.DefaultLayoutsAreAdmitted : Prop :=
  paramsDefault.Wf ∧ bfAssigned 16 (fSmcs smcsLayoutDefault) = 0x3B7F ∧
  bfAssigned 16 (fSmen smenLayoutDefault) = 0x03C3 ∧ bfAssigned 16 fHdr = 0xFFFF ∧
  bfAssigned 16 fLrcm = 0xFFFF ∧ bfAssigned 8 fCaps = 0x03 ∧ bfAssigned 8 fActv = 0x01 ∧
  Format.Wf 16 fHdr ∧ Format.Wf 16 fLrcm ∧ Format.Wf 8 fCaps ∧ Format.Wf 8 fActv

/-- Rule R155: `SM_RENDER` gives start, length, the CtrlStatus word and the Enable word, each
little-endian, eight bytes; the two words are what `SMCS_ENC` and `SMEN_ENC` answer. -/
def Obligations.SyncManagerRenderEightBytes : Prop :=
  ∀ (m : SyncManager) (s : State), ∃ v w : U16,
    exec (.smcsEnc m.cs) s = .next { s with response := some (.ok (.word v)) } ∧
    exec (.smenEnc m.en) s = .next { s with response := some (.ok (.word w)) } ∧
    exec (.smRender m) s = .next { s with response := some (.ok (.bytes
      [m.start.extractLsb' 0 8, m.start.extractLsb' 8 8, m.length.extractLsb' 0 8,
       m.length.extractLsb' 8 8, v.extractLsb' 0 8, v.extractLsb' 8 8, w.extractLsb' 0 8,
       w.extractLsb' 8 8])) }

/-! ### FMMU and plain payloads -/

/-- Rules R160 and R161: `FMMU_RENDER` gives the thirteen bytes, multi-byte fields little-endian,
the capability byte read at bit 0 and write at bit 1, the activation byte active at bit 0, the
other bits of both 0 (D9). -/
def Obligations.FmmuRenderThirteenBytes : Prop :=
  ∀ (f : Fmmu) (s : State), exec (.fmmuRender f) s = .next { s with response := some (.ok (.bytes
    [f.logStart.extractLsb' 0 8, f.logStart.extractLsb' 8 8, f.logStart.extractLsb' 16 8,
     f.logStart.extractLsb' 24 8, f.logLen.extractLsb' 0 8, f.logLen.extractLsb' 8 8,
     f.logStartBit, f.logEndBit, f.physStart.extractLsb' 0 8, f.physStart.extractLsb' 8 8,
     f.physStartBit,
     (match f.write, f.read with
       | false, false => 0x00 | false, true => 0x01 | true, false => 0x02 | true, true => 0x03),
     (if f.active then 0x01 else 0x00)])) }

/-- Rule R164: different FMMU records render to different bytes (the spec's inference). -/
def Obligations.FmmuRenderIsInjective : Prop :=
  ∀ (f g : Fmmu) (s : State), exec (.fmmuRender f) s = exec (.fmmuRender g) s → f = g

/-- Rule R172: a raw buffer within `PAYLOAD_MAX` renders to exactly its own bytes. -/
def Obligations.RawRenderIsTheIdentity : Prop :=
  ∀ (b : Bytes) (s : State), (Payload.raw b).fits s.params = true →
    exec (.rawRender b) s = .next { s with response := some (.ok (.bytes b)) }

/-- Rule R173: a structured payload and the raw bytes of its render are the same payload as far as
any output can tell: a datagram's bytes and length are the same with either, always; and where the
raw bytes are within `PAYLOAD_MAX`, `DG_RENDER`, `FRAME_APPEND` and a later `FRAME_RENDER` answer
alike (the spec's inference). Where a finite `PAYLOAD_MAX` is less than the bytes, the raw payload
alone is refused (rule R184), so there the two differ. -/
def Obligations.StructuredPayloadsAreTheirBytes : Prop :=
  ∀ (d : Datagram) (b : Bytes) (s : State),
    exec (payloadRenderOp d.payload) s = .next { s with response := some (.ok (.bytes b)) } →
    dgBytes s.params { d with payload := .raw b } = dgBytes s.params d ∧
    dgLen s.params { d with payload := .raw b } = dgLen s.params d ∧
    ((Payload.raw b).fits s.params = true →
      exec (.dgRender { d with payload := .raw b }) s = exec (.dgRender d) s ∧
      ∃ t t', exec (.frameAppend d) s = .next t ∧
        exec (.frameAppend { d with payload := .raw b }) s = .next t' ∧ t.response = t'.response ∧
        t.fh = t'.fh ∧ ∃ u u', exec .frameRender t = .next u ∧ exec .frameRender t' = .next u' ∧
        u.response = u'.response)

/-- Rules R62, R64, R66, R67 and R68: the register rows of the table give the packed image of their
fields (that a row is run at all is the model's choice, notes/assumptions/2.md). -/
def Obligations.RegisterRowsPackTheirFields : Prop :=
  ∀ s : State,
    (∀ len : U11, exec (.regHeader len) s =
      .next { s with response := some (.ok (.word (0x1000 ||| len.setWidth 16))) }) ∧
    (∀ l : Lrcm, exec (.regLrcm l) s = .next { s with response := some (.ok (.word
      (flagBit l.more 15 ||| flagBit l.circ 14 ||| (l.reserved.setWidth 16 <<< 11) |||
        l.len.setWidth 16))) }) ∧
    (∀ c : SmCtrlStatus, s.params.smcsLayout = smcsLayoutDefault → exec (.regSmcs c) s =
      .next { s with response := some (.ok (.word
        ((c.bufferState.setWidth 16 <<< 12) ||| flagBit c.visibleBufferState 11 |||
         flagBit c.canReadIrq 9 ||| flagBit c.canWriteIrq 8 ||| flagBit c.triggerWatchdog 6 |||
         flagBit c.pdiIrq 5 ||| flagBit c.ecatIrq 4 ||| (c.access.setWidth 16 <<< 2) |||
         c.opMode.setWidth 16))) }) ∧
    (∀ c : SmCtrlStatus, exec (.regSmcs c) s = exec (.smcsEnc c) s) ∧
    (∀ e : SmEnable, s.params.smenLayout = smenLayoutDefault → exec (.regSmen e) s =
      .next { s with response := some (.ok (.word
        (flagBit e.repeatAck 9 ||| flagBit e.deactivate 8 ||| flagBit e.latchChangePdi 7 |||
         flagBit e.latchChangeEcat 6 ||| flagBit e.repeatRequest 1 ||| flagBit e.enable 0))) }) ∧
    (∀ e : SmEnable, exec (.regSmen e) s = exec (.smenEnc e) s) ∧
    (∀ write read : Bool, exec (.regFmmuCaps write read) s =
      .next { s with response := some (.ok (.byte
        (match write, read with
          | false, false => 0x00 | false, true => 0x01 | true, false => 0x02 | true, true => 0x03))) }) ∧
    (∀ active : Bool, exec (.regFmmuActv active) s =
      .next { s with response := some (.ok (.byte (if active then 0x01 else 0x00))) })

/-! ### Encoding -/

/-- Decoding the request of an instruction gives the instruction back, for every instruction with
every operand at every value (the operand bytes are the model's, notes/assumptions/1.md, and the
encoding spaces of the rows that are no operations, notes/assumptions/2.md). -/
def Obligations.DecodeUndoesEncode : Prop :=
  ∀ (i : Instr) (rest : Bytes),
    Decode.decode (Decode.encode i).space ((Decode.encode i).bytes ++ rest) = .ok (i, rest) ∧
    Decode.decodeRequest (Decode.encode i) = .ok i

/-- A request that decodes to an instruction is the encoding of that instruction: no instruction has
two encodings and no bit of a request is dropped. (The operand bytes and the strictness about them
are the model's, notes/assumptions/1.md, and so are the encoding spaces of the rows that are no
operations, notes/assumptions/2.md.) -/
def Obligations.EncodeUndoesDecode : Prop :=
  ∀ (r : Request) (i : Instr), Decode.decodeRequest r = .ok i → Decode.encode i = r

/-- A few words written out from the spec's encodings decode to what they stand for: the codes of
rule R80, a command byte of rule R70 and register words of rules R62, R64, R66, R67 and R68. The
bytes of the operand of `HDR_WITHLEN` are the model's choice (notes/assumptions/1.md), and so are
the encoding spaces of the register rows (notes/assumptions/2.md) and how a bare word of the table
is read, its operand bytes zero (notes/assumptions/3.md). -/
def Obligations.SampleWordsDecode : Prop :=
  Decode.decodeRequest ⟨.opsel, [0x02]⟩ = .ok .frameRender ∧
  Decode.decodeRequest ⟨.opsel, [0x11, 0xFF, 0x07]⟩ = .ok (.hdrWithlen 2047) ∧
  Decode.decodeRequest ⟨.header, [0x14, 0x10]⟩ = .ok (.regHeader 20) ∧
  Decode.decodeRequest ⟨.lrcm, [0xA5, 0xA5]⟩ =
    .ok (.regLrcm { more := true, circ := false, reserved := 4, len := 1445 }) ∧
  Decode.decodeRequest ⟨.smcs, [0x56, 0x3A]⟩ = .ok (.regSmcs
    { bufferState := 3, visibleBufferState := true, canReadIrq := true, canWriteIrq := false,
      triggerWatchdog := true, pdiIrq := false, ecatIrq := true, access := 1, opMode := 2 }) ∧
  Decode.decodeRequest ⟨.smen, [0x03, 0x02]⟩ = .ok (.regSmen
    { repeatAck := true, deactivate := false, latchChangePdi := false, latchChangeEcat := false,
      repeatRequest := true, enable := true }) ∧
  Decode.decodeRequest ⟨.fmmuCaps, [0x02]⟩ = .ok (.regFmmuCaps true false) ∧
  decodeTableWord 8 0x07 = some (.cmdBrd
    { index := 0, address := 0,
      lrcm := { more := false, circ := false, reserved := 0, len := 0 }, irq := 0,
      payload := .raw [], wkc := 0 }) ∧
  decodeTableWord 8 0x15 = none
end

