-- ==== Sys2Proof/Laws/Bits.lean ====
section
/-! SUPPORT. The bits of packed words: what each field contributes, and the block's registers as
their fields side by side. -/

namespace Sys2Proof.Machine

/-- The bits of two words side by side, whatever form the sum of their widths has. -/
theorem getLsbD_sideBySide {a b : Nat} (x : BitVec a) (y : BitVec b) (j : Nat) :
    @BitVec.getLsbD (no_index (a + b)) (x ++ y) j =
      if j < b then y.getLsbD j else x.getLsbD (j - b) := by
  rw [BitVec.getLsbD_append]

/-- The bits that one field contributes to a packed word. -/
theorem getLsbD_putField (n : Nat) (f : Field) (x j : Nat) :
    (putField n f x).getLsbD j =
      (decide (j < n) && decide (f.lo ≤ j) && decide (j - f.lo < f.width) && x.testBit (j - f.lo)) := by
  simp only [putField, BitVec.getLsbD_shiftLeft, BitVec.getLsbD_ofNat, Nat.testBit_mod_two_pow]
  by_cases h1 : j < n <;> by_cases h2 : f.lo ≤ j <;> simp [h1, h2, Nat.not_lt.2, Nat.lt_of_not_le]; omega

/-- The bits of one extracted field. -/
theorem testBit_getField {n : Nat} (f : Field) (v : BitVec n) (j : Nat) :
    (getField f v).testBit j = (decide (j < f.width) && v.getLsbD (f.lo + j)) := by
  simp [getField, Nat.testBit_mod_two_pow, Nat.testBit_shiftRight, BitVec.getLsbD]

/-- An extracted field fits its width. -/
theorem getField_lt {n : Nat} (f : Field) (v : BitVec n) : getField f v < 2 ^ f.width :=
  Nat.mod_lt _ (Nat.two_pow_pos _)

/-- A flag extracted from a word is that bit of the word. -/
theorem n2b_getField_flagAt (name : String) (k : Nat) {n : Nat} (v : BitVec n) :
    n2b (getField (flagAt name k) v) = v.getLsbD k := by
  have h := testBit_getField (flagAt name k) v 0
  have hlt := getField_lt (flagAt name k) v
  simp only [flagAt, Field.width, Nat.sub_self, Nat.zero_add, Nat.pow_one] at hlt h ⊢
  generalize getField _ v = x at *
  have hx : x = 0 ∨ x = 1 := by omega
  rcases hx with rfl | rfl <;> simp_all [n2b]

/-- A 2-bit field extracted from a word is those two bits of the word. -/
theorem ofNat_getField_uint2At (name : String) (k : Nat) {n : Nat} (v : BitVec n) :
    BitVec.ofNat 2 (getField (uint2At name k) v) = v.extractLsb' k 2 := by
  ext j hj
  rw [← BitVec.getLsbD_eq_getElem, BitVec.getLsbD_ofNat, testBit_getField]
  simp [uint2At, Field.width, hj, BitVec.getLsbD]

@[simp] theorem toNat_testBit_b2n (b : Bool) (j : Nat) :
    (b2n b).testBit j = (decide (j = 0) && b) := by
  cases b <;> cases j <;> simp [b2n, Nat.testBit_succ]

/-- A flag's contribution to the packed word: its bit at its place. -/
theorem putField_flagAt (n : Nat) (name : String) (k : Nat) (b : Bool) :
    putField n (flagAt name k) (b2n b) = (BitVec.ofBool b).setWidth n <<< k := by
  ext j hj
  rw [← BitVec.getLsbD_eq_getElem, ← BitVec.getLsbD_eq_getElem, getLsbD_putField]
  simp only [flagAt, Field.width, toNat_testBit_b2n, BitVec.getLsbD_shiftLeft,
    BitVec.getLsbD_setWidth, BitVec.getLsbD_ofBool]
  by_cases h : k ≤ j
  · have : ¬ j < k := by omega
    by_cases h0 : j - k = 0 <;> simp [hj, h, this, h0]; omega
  · have : j < k := by omega
    simp [h, this]

/-- A field's contribution to the packed word: its bits at their place. -/
theorem putField_toNat (n : Nat) (f : Field) {w : Nat} (x : BitVec w) (hw : f.width = w)
    (hn : w ≤ n) : putField n f x.toNat = x.setWidth n <<< f.lo := by
  subst hw
  ext j hj
  rw [← BitVec.getLsbD_eq_getElem, ← BitVec.getLsbD_eq_getElem, getLsbD_putField]
  simp only [BitVec.getLsbD_shiftLeft, BitVec.getLsbD_setWidth]
  by_cases h : f.lo ≤ j
  · have h' : ¬ j < f.lo := by omega
    by_cases h2 : j - f.lo < f.width
    · have : j - f.lo < n := by omega
      simp [hj, h, h', h2, this, BitVec.getLsbD]
    · have hz : x.getLsbD (j - f.lo) = false := BitVec.getLsbD_of_ge _ _ (by omega)
      simp [h2, hz]
  · have : j < f.lo := by omega
    simp [h, this]

/-- A 2-bit field's contribution to the packed word. -/
theorem putField_uint2At (n : Nat) (name : String) (k : Nat) (x : U2) (hn : 2 ≤ n) :
    putField n (uint2At name k) x.toNat = x.setWidth n <<< k :=
  putField_toNat n (uint2At name k) x (by simp [uint2At, Field.width]) hn

/-- `hdr_u16` is the three fields shifted to their places and or-ed (rule R110). -/
theorem hdrU16_eq (h : Header) :
    hdrU16 h = h.type.setWidth 16 <<< 12 ||| (h.reserved.setWidth 16 <<< 11 ||| h.length.setWidth 16) := by
  have e0 : (0 : BitVec 16) = 0#16 := rfl
  simp only [hdrU16, fHdr, headerValues, bfPack, e0, BitVec.or_zero,
    putField_toNat 16 hdrTypeField h.type rfl (by decide),
    putField_toNat 16 hdrReservedField h.reserved rfl (by decide),
    putField_toNat 16 hdrLengthField h.length rfl (by decide)]
  simp [hdrTypeField, hdrReservedField, hdrLengthField]

/-- `lrcm_u16` is the four fields shifted to their places and or-ed (rule R120). -/
theorem lrcmU16_eq (l : Lrcm) :
    lrcmU16 l = (BitVec.ofBool l.more).setWidth 16 <<< 15 |||
      ((BitVec.ofBool l.circ).setWidth 16 <<< 14 |||
        (l.reserved.setWidth 16 <<< 11 ||| l.len.setWidth 16)) := by
  have e0 : (0 : BitVec 16) = 0#16 := rfl
  simp only [lrcmU16, fLrcm, lrcmValues, lrcmMoreField, lrcmCircField, bfPack, putField_flagAt, e0,
    BitVec.or_zero, putField_toNat 16 lrcmReservedField l.reserved rfl (by decide),
    putField_toNat 16 lrcmLenField l.len rfl (by decide)]
  simp [lrcmReservedField, lrcmLenField]

/-- The header's word is its fields side by side. -/
theorem hdrU16_eq_append (h : Header) : hdrU16 h = h.type ++ h.reserved ++ h.length := by
  rw [hdrU16_eq]
  apply BitVec.eq_of_getLsbD_eq
  intro j hj
  rw [getLsbD_sideBySide, getLsbD_sideBySide]
  interval_cases j <;> simp

/-- The LRCM's word is its fields side by side. -/
theorem lrcmU16_eq_append (l : Lrcm) :
    lrcmU16 l = BitVec.ofBool l.more ++ BitVec.ofBool l.circ ++ l.reserved ++ l.len := by
  rw [lrcmU16_eq]
  apply BitVec.eq_of_getLsbD_eq
  intro j hj
  rw [getLsbD_sideBySide, getLsbD_sideBySide, getLsbD_sideBySide]
  interval_cases j <;> simp

/-- `smcs_u16` under a layout: nine fields shifted to their places and or-ed (rule R150). -/
theorem smcsU16_eq (L : SmcsLayout) (c : SmCtrlStatus) :
    smcsU16 L c = c.bufferState.setWidth 16 <<< L.bufferState |||
      ((BitVec.ofBool c.visibleBufferState).setWidth 16 <<< L.visibleBufferState |||
      ((BitVec.ofBool c.canReadIrq).setWidth 16 <<< L.canReadIrq |||
      ((BitVec.ofBool c.canWriteIrq).setWidth 16 <<< L.canWriteIrq |||
      ((BitVec.ofBool c.triggerWatchdog).setWidth 16 <<< L.triggerWatchdog |||
      ((BitVec.ofBool c.pdiIrq).setWidth 16 <<< L.pdiIrq |||
      ((BitVec.ofBool c.ecatIrq).setWidth 16 <<< L.ecatIrq |||
      (c.access.setWidth 16 <<< L.access ||| c.opMode.setWidth 16 <<< L.opMode))))))) := by
  have e0 : (0 : BitVec 16) = 0#16 := rfl
  simp only [smcsU16, fSmcs, smcsValues, bfPack, putField_flagAt, e0, BitVec.or_zero,
    putField_uint2At 16 _ _ _ (by decide)]

/-- `smen_u16` under a layout: six flags at their places, or-ed (rule R150). -/
theorem smenU16_eq (L : SmenLayout) (e : SmEnable) :
    smenU16 L e = (BitVec.ofBool e.repeatAck).setWidth 16 <<< L.repeatAck |||
      ((BitVec.ofBool e.deactivate).setWidth 16 <<< L.deactivate |||
      ((BitVec.ofBool e.latchChangePdi).setWidth 16 <<< L.latchChangePdi |||
      ((BitVec.ofBool e.latchChangeEcat).setWidth 16 <<< L.latchChangeEcat |||
      ((BitVec.ofBool e.repeatRequest).setWidth 16 <<< L.repeatRequest |||
      (BitVec.ofBool e.enable).setWidth 16 <<< L.enable)))) := by
  have e0 : (0 : BitVec 16) = 0#16 := rfl
  simp only [smenU16, fSmen, smenValues, bfPack, putField_flagAt, e0, BitVec.or_zero]

end Sys2Proof.Machine
end

