-- ==== Sys2Proof/Laws/Decode.lean ====
section
/-! SUPPORT. Each reader of operands undoes its writer, and each writer its reader: the round trip
of one operand at a time. -/

namespace Sys2Proof.Decode

open Sys2Proof.Machine

@[simp] theorem andThen_ok {α β : Type} (a : α) (bs : Bytes) (k : α → Bytes → Taken β) :
    andThen (.ok (a, bs)) k = k a bs := rfl

@[simp] theorem andThen_error {α β : Type} (e : DecodeError) (k : α → Bytes → Taken β) :
    andThen (.error e : Taken α) k = .error e := rfl

@[simp] theorem takeU8_cons (b : U8) (bs : Bytes) : takeU8 (b :: bs) = .ok (b, bs) := rfl

/-- The two bytes of a word, side by side, are the word. -/
theorem bytes_of_u16 (v : U16) : v.extractLsb' 8 8 ++ v.extractLsb' 0 8 = v := by
  apply BitVec.eq_of_getLsbD_eq
  intro j hj
  rw [getLsbD_sideBySide]
  split
  · simp_all
  · have : j - 8 < 8 := by omega
    have h8 : 8 + (j - 8) = j := by omega
    simp [this, h8]

@[simp] theorem takeU16_le16 (v : U16) (bs : Bytes) : takeU16 (le16 v ++ bs) = .ok (v, bs) := by
  show Except.ok (v.extractLsb' 8 8 ++ v.extractLsb' 0 8, bs) = _
  rw [bytes_of_u16]

@[simp] theorem takeU16Be_be16 (v : U16) (bs : Bytes) : takeU16Be (be16 v ++ bs) = .ok (v, bs) := by
  show Except.ok (v.extractLsb' 8 8 ++ v.extractLsb' 0 8, bs) = _
  rw [bytes_of_u16]

/-- The four bytes of a word, side by side, are the word. -/
theorem bytes_of_u32 (v : U32) :
    v.extractLsb' 24 8 ++ v.extractLsb' 16 8 ++ v.extractLsb' 8 8 ++ v.extractLsb' 0 8 = v := by
  apply BitVec.eq_of_getLsbD_eq
  intro j hj
  rw [getLsbD_sideBySide, getLsbD_sideBySide, getLsbD_sideBySide]
  interval_cases j <;> simp

@[simp] theorem takeU32_le32 (v : U32) (bs : Bytes) : takeU32 (le32 v ++ bs) = .ok (v, bs) := by
  show Except.ok (v.extractLsb' 24 8 ++ v.extractLsb' 16 8 ++ v.extractLsb' 8 8 ++ v.extractLsb' 0 8,
    bs) = _
  rw [bytes_of_u32]

@[simp] theorem takeAddress_addressBytes (v : U32) (bs : Bytes) :
    takeAddress (addressBytes v ++ bs) = .ok (v, bs) := by
  have h : addressBytes v =
      [v.extractLsb' 16 8, v.extractLsb' 24 8, v.extractLsb' 0 8, v.extractLsb' 8 8] := by
    simp only [addressBytes, le16, List.cons_append, List.nil_append, List.cons.injEq, and_true]
    refine ⟨?_, ?_, ?_, ?_⟩ <;> (apply BitVec.eq_of_getLsbD_eq; intro j hj; interval_cases j <;> simp)
  rw [h]
  show Except.ok (v.extractLsb' 24 8 ++ v.extractLsb' 16 8 ++ v.extractLsb' 8 8 ++ v.extractLsb' 0 8,
    bs) = _
  rw [bytes_of_u32]

@[simp] theorem takeBool_putBool (b : Bool) (bs : Bytes) :
    takeBool (putBool b ++ bs) = .ok (b, bs) := by cases b <;> rfl

@[simp] theorem takeBytes_putBytes (xs bs : Bytes) :
    takeBytes (putBytes xs ++ bs) = .ok (xs, bs) := by
  induction xs with
  | nil => cases bs <;> rfl
  | cons x xs ih => simp [putBytes, takeBytes, ih]

theorem wordHeader_headerWord (h : Header) : wordHeader (headerWord h) = h := by
  obtain ⟨t, r, l⟩ := h
  simp only [wordHeader, headerWord, Header.mk.injEq]
  refine ⟨?_, ?_, ?_⟩ <;>
    (apply BitVec.eq_of_getLsbD_eq; intro j hj
     rw [BitVec.getLsbD_extractLsb', getLsbD_sideBySide, getLsbD_sideBySide]
     interval_cases j <;> simp)

theorem headerWord_wordHeader (v : U16) : headerWord (wordHeader v) = v := by
  apply BitVec.eq_of_getLsbD_eq
  intro j hj
  rw [headerWord, getLsbD_sideBySide, getLsbD_sideBySide]
  interval_cases j <;> simp [wordHeader]

theorem wordLrcm_lrcmWord (l : Lrcm) : wordLrcm (lrcmWord l) = l := by
  obtain ⟨m, c, r, l⟩ := l
  simp only [wordLrcm, lrcmWord, Lrcm.mk.injEq]
  refine ⟨?_, ?_, ?_, ?_⟩
  · rw [getLsbD_sideBySide, getLsbD_sideBySide, getLsbD_sideBySide]; simp
  · rw [getLsbD_sideBySide, getLsbD_sideBySide, getLsbD_sideBySide]; simp
  all_goals
    apply BitVec.eq_of_getLsbD_eq; intro j hj
    rw [BitVec.getLsbD_extractLsb', getLsbD_sideBySide, getLsbD_sideBySide, getLsbD_sideBySide]
    interval_cases j <;> simp

theorem lrcmWord_wordLrcm (v : U16) : lrcmWord (wordLrcm v) = v := by
  apply BitVec.eq_of_getLsbD_eq
  intro j hj
  rw [lrcmWord, getLsbD_sideBySide, getLsbD_sideBySide, getLsbD_sideBySide]
  interval_cases j <;> simp [wordLrcm]

/-- The bits of a `REG_SMCS` word. -/
theorem getLsbD_smcsWord (c : SmCtrlStatus) (j : Nat) :
    (smcsWord c).getLsbD j =
      if j < 2 then c.opMode.getLsbD j else if j < 4 then c.access.getLsbD (j - 2)
      else if j = 4 then c.ecatIrq else if j = 5 then c.pdiIrq else if j = 6 then c.triggerWatchdog
      else if j = 8 then c.canWriteIrq else if j = 9 then c.canReadIrq
      else if j = 11 then c.visibleBufferState
      else if j < 12 then false
      else if j < 14 then c.bufferState.getLsbD (j - 12) else false := by
  by_cases hj : j < 16
  · rw [smcsWord, getLsbD_sideBySide, getLsbD_sideBySide, getLsbD_sideBySide, getLsbD_sideBySide,
      getLsbD_sideBySide, getLsbD_sideBySide, getLsbD_sideBySide, getLsbD_sideBySide,
      getLsbD_sideBySide, getLsbD_sideBySide, getLsbD_sideBySide]
    interval_cases j <;> simp
  · rw [BitVec.getLsbD_of_ge _ _ (by omega)]
    simp only [show ¬ j < 2 by omega, show ¬ j < 4 by omega, show ¬ j = 4 by omega,
      show ¬ j = 5 by omega, show ¬ j = 6 by omega, show ¬ j = 8 by omega, show ¬ j = 9 by omega,
      show ¬ j = 11 by omega, show ¬ j < 12 by omega, show ¬ j < 14 by omega, if_false]

/-- The bits of a `REG_SMEN` word. -/
theorem getLsbD_smenWord (e : SmEnable) (j : Nat) :
    (smenWord e).getLsbD j =
      if j = 0 then e.enable else if j = 1 then e.repeatRequest
      else if j = 6 then e.latchChangeEcat else if j = 7 then e.latchChangePdi
      else if j = 8 then e.deactivate else if j = 9 then e.repeatAck else false := by
  by_cases hj : j < 16
  · rw [smenWord, getLsbD_sideBySide, getLsbD_sideBySide, getLsbD_sideBySide, getLsbD_sideBySide,
      getLsbD_sideBySide, getLsbD_sideBySide, getLsbD_sideBySide]
    interval_cases j <;> simp
  · rw [BitVec.getLsbD_of_ge _ _ (by omega)]
    simp only [show ¬ j = 0 by omega, show ¬ j = 1 by omega, show ¬ j = 6 by omega,
      show ¬ j = 7 by omega, show ¬ j = 8 by omega, show ¬ j = 9 by omega, if_false]

theorem wordSmcs_smcsWord (c : SmCtrlStatus) : wordSmcs (smcsWord c) = c := by
  obtain ⟨b, v, r, w, t, p, e, a, o⟩ := c
  simp only [wordSmcs, getLsbD_smcsWord, SmCtrlStatus.mk.injEq]
  refine ⟨?_, by simp, by simp, by simp, by simp, by simp, by simp, ?_, ?_⟩ <;>
    (apply BitVec.eq_of_getLsbD_eq; intro j hj
     rw [BitVec.getLsbD_extractLsb', getLsbD_smcsWord]
     interval_cases j <;> simp)

theorem smcsWord_unassigned (c : SmCtrlStatus) : smcsWord c &&& 0xC480 = 0 := by
  apply BitVec.eq_of_getLsbD_eq
  intro j hj
  rw [BitVec.getLsbD_and, getLsbD_smcsWord]
  interval_cases j <;> simp

theorem smcsWord_wordSmcs (v : U16) (h : v &&& 0xC480 = 0) : smcsWord (wordSmcs v) = v := by
  apply BitVec.eq_of_getLsbD_eq
  intro j hj
  have hb := congrArg (fun w => BitVec.getLsbD w j) h
  rw [getLsbD_smcsWord]
  simp only [BitVec.getLsbD_and] at hb
  interval_cases j <;> simp_all [wordSmcs]

theorem wordSmen_smenWord (e : SmEnable) : wordSmen (smenWord e) = e := by
  obtain ⟨a, b, c, d, f, g⟩ := e
  simp [wordSmen, getLsbD_smenWord, -BitVec.getLsbD_eq_getElem]

theorem smenWord_unassigned (e : SmEnable) : smenWord e &&& 0xFC3C = 0 := by
  apply BitVec.eq_of_getLsbD_eq
  intro j hj
  rw [BitVec.getLsbD_and, getLsbD_smenWord]
  interval_cases j <;> simp

theorem smenWord_wordSmen (v : U16) (h : v &&& 0xFC3C = 0) : smenWord (wordSmen v) = v := by
  apply BitVec.eq_of_getLsbD_eq
  intro j hj
  have hb := congrArg (fun w => BitVec.getLsbD w j) h
  rw [getLsbD_smenWord]
  simp only [BitVec.getLsbD_and] at hb
  interval_cases j <;> simp_all [wordSmen]

@[simp] theorem takeHeader_word (h : Header) (bs : Bytes) :
    takeHeader (le16 (headerWord h) ++ bs) = .ok (h, bs) := by
  simp [takeHeader, wordHeader_headerWord]

@[simp] theorem takeLrcm_word (l : Lrcm) (bs : Bytes) :
    takeLrcm (le16 (lrcmWord l) ++ bs) = .ok (l, bs) := by
  simp [takeLrcm, wordLrcm_lrcmWord]

@[simp] theorem takeSmcs_word (c : SmCtrlStatus) (bs : Bytes) :
    takeSmcs (le16 (smcsWord c) ++ bs) = .ok (c, bs) := by
  simp only [takeSmcs, takeU16_le16, andThen_ok, smcsWord_unassigned, if_true, wordSmcs_smcsWord]

@[simp] theorem takeSmen_word (e : SmEnable) (bs : Bytes) :
    takeSmen (le16 (smenWord e) ++ bs) = .ok (e, bs) := by
  simp only [takeSmen, takeU16_le16, andThen_ok, smenWord_unassigned, if_true, wordSmen_smenWord]

@[simp] theorem takeCaps_byte (w r : Bool) (bs : Bytes) :
    takeCaps (capsByte w r :: bs) = .ok ((w, r), bs) := by
  cases w <;> cases r <;> rfl

@[simp] theorem takeActv_byte (a : Bool) (bs : Bytes) :
    takeActv (actvByte a :: bs) = .ok (a, bs) := by
  cases a <;> rfl

@[simp] theorem takeSyncManager_put (m : SyncManager) (bs : Bytes) :
    takeSyncManager (putSyncManager m ++ bs) = .ok (m, bs) := by
  simp [takeSyncManager, putSyncManager, List.append_assoc]

@[simp] theorem takeFmmu_put (f : Fmmu) (bs : Bytes) :
    takeFmmu (putFmmu f ++ bs) = .ok (f, bs) := by
  simp [takeFmmu, putFmmu, List.append_assoc]

@[simp] theorem takePayload_put (p : Payload) (bs : Bytes) :
    takePayload (putPayload p ++ bs) = .ok (p, bs) := by
  cases p <;> simp [takePayload, putPayload]

@[simp] theorem takeBody_put (b : DatagramBody) (bs : Bytes) :
    takeBody (putBody b ++ bs) = .ok (b, bs) := by
  simp [takeBody, putBody, List.append_assoc]

@[simp] theorem takeDatagram_put (d : Datagram) (bs : Bytes) :
    takeDatagram (putDatagram d ++ bs) = .ok (d, bs) := by
  simp [takeDatagram, putDatagram, datagramOf, bodyOf]

/-! ### A register's word is never empty, so its reader is reached -/

@[simp] theorem decode_header (v : U16) (bs : Bytes) :
    decode .header (le16 v ++ bs) = decodeHeaderReg (le16 v ++ bs) := rfl
@[simp] theorem decode_lrcm (v : U16) (bs : Bytes) :
    decode .lrcm (le16 v ++ bs) = andThen (takeLrcm (le16 v ++ bs)) fun l bs => .ok (.regLrcm l, bs) := rfl
@[simp] theorem decode_smcs (v : U16) (bs : Bytes) :
    decode .smcs (le16 v ++ bs) = andThen (takeSmcs (le16 v ++ bs)) fun c bs => .ok (.regSmcs c, bs) := rfl
@[simp] theorem decode_smen (v : U16) (bs : Bytes) :
    decode .smen (le16 v ++ bs) = andThen (takeSmen (le16 v ++ bs)) fun e bs => .ok (.regSmen e, bs) := rfl

/-- A header word of the block is its fixed bits over its length. -/
theorem headerReg_fixed (l : U11) : (2#5 ++ l : U16) &&& 0xF800 = 0x1000 := by
  apply BitVec.eq_of_getLsbD_eq
  intro j hj
  rw [BitVec.getLsbD_and, getLsbD_sideBySide]
  interval_cases j <;> simp

theorem headerReg_length (l : U11) : (2#5 ++ l : U16).extractLsb' 0 11 = l := by
  apply BitVec.eq_of_getLsbD_eq
  intro j hj
  rw [BitVec.getLsbD_extractLsb', getLsbD_sideBySide]
  simp [hj]

theorem headerReg_of_fixed (v : U16) (h : v &&& 0xF800 = 0x1000) :
    (2#5 ++ v.extractLsb' 0 11 : U16) = v := by
  apply BitVec.eq_of_getLsbD_eq
  intro j hj
  have hb := congrArg (fun w => BitVec.getLsbD w j) h
  rw [getLsbD_sideBySide]
  simp only [BitVec.getLsbD_and] at hb
  interval_cases j <;> simp_all

@[simp] theorem decodeHeaderReg_word (l : U11) (bs : Bytes) :
    decodeHeaderReg (le16 (2#5 ++ l) ++ bs) = .ok (.regHeader l, bs) := by
  simp only [decodeHeaderReg, takeU16_le16, andThen_ok, headerReg_fixed, if_true, headerReg_length]

/-! ### Each writer undoes its reader: a reader accepts nothing but what the writer writes -/

theorem andThen_eq_ok {α β : Type} {t : Taken α} {k : α → Bytes → Taken β} {x : β × Bytes} :
    andThen t k = .ok x ↔ ∃ a bs, t = .ok (a, bs) ∧ k a bs = .ok x := by
  cases t with
  | error e => simp
  | ok p => obtain ⟨a, bs⟩ := p; simp

/-- The bytes of two bytes side by side. -/
theorem le16_sideBySide (a b : U8) : le16 (b ++ a) = [a, b] := by
  have h1 : (b ++ a).extractLsb' 0 8 = a := by
    apply BitVec.eq_of_getLsbD_eq; intro j hj
    rw [BitVec.getLsbD_extractLsb', getLsbD_sideBySide]; simp [hj]
  have h2 : (b ++ a).extractLsb' 8 8 = b := by
    apply BitVec.eq_of_getLsbD_eq; intro j hj
    rw [BitVec.getLsbD_extractLsb', getLsbD_sideBySide]; simp [hj]
  show [(b ++ a).extractLsb' 0 8, (b ++ a).extractLsb' 8 8] = _
  rw [h1, h2]

theorem be16_sideBySide (a b : U8) : be16 (a ++ b) = [a, b] := by
  have h := le16_sideBySide b a
  simp only [le16, List.cons.injEq, and_true] at h
  show [(a ++ b).extractLsb' 8 8, (a ++ b).extractLsb' 0 8] = _
  rw [h.1, h.2]

/-- The bytes of four bytes side by side. -/
theorem le32_sideBySide (a b c d : U8) : le32 (d ++ c ++ b ++ a) = [a, b, c, d] := by
  simp only [le32, List.cons.injEq, and_true]
  refine ⟨?_, ?_, ?_, ?_⟩ <;>
    (apply BitVec.eq_of_getLsbD_eq; intro j hj
     rw [BitVec.getLsbD_extractLsb', getLsbD_sideBySide, getLsbD_sideBySide, getLsbD_sideBySide]
     interval_cases j <;> simp)

theorem addressBytes_sideBySide (a b c d : U8) :
    addressBytes (b ++ a ++ d ++ c) = [a, b, c, d] := by
  simp only [addressBytes, le16, List.cons_append, List.nil_append, List.cons.injEq, and_true]
  refine ⟨?_, ?_, ?_, ?_⟩ <;>
    (apply BitVec.eq_of_getLsbD_eq; intro j hj
     rw [BitVec.getLsbD_extractLsb', BitVec.getLsbD_extractLsb', getLsbD_sideBySide,
       getLsbD_sideBySide, getLsbD_sideBySide]
     interval_cases j <;> simp)

theorem takeU8_inv {bs r : Bytes} {v : U8} : takeU8 bs = .ok (v, r) → bs = v :: r := by
  cases bs <;> simp [takeU8]

theorem takeU16_inv {bs r : Bytes} {v : U16} (h : takeU16 bs = .ok (v, r)) : bs = le16 v ++ r := by
  match bs, h with
  | b0 :: b1 :: bs, h =>
    simp [takeU16] at h; obtain ⟨rfl, rfl⟩ := h; rw [le16_sideBySide]; rfl

theorem takeU16Be_inv {bs r : Bytes} {v : U16} (h : takeU16Be bs = .ok (v, r)) :
    bs = be16 v ++ r := by
  match bs, h with
  | b0 :: b1 :: bs, h =>
    simp [takeU16Be] at h; obtain ⟨rfl, rfl⟩ := h; rw [be16_sideBySide]; rfl

theorem takeU32_inv {bs r : Bytes} {v : U32} (h : takeU32 bs = .ok (v, r)) : bs = le32 v ++ r := by
  match bs, h with
  | b0 :: b1 :: b2 :: b3 :: bs, h =>
    simp only [takeU32, Except.ok.injEq, Prod.mk.injEq] at h
    obtain ⟨rfl, rfl⟩ := h; rw [le32_sideBySide]; rfl

theorem takeAddress_inv {bs r : Bytes} {v : U32} (h : takeAddress bs = .ok (v, r)) :
    bs = addressBytes v ++ r := by
  match bs, h with
  | b0 :: b1 :: b2 :: b3 :: bs, h =>
    simp only [takeAddress, Except.ok.injEq, Prod.mk.injEq] at h
    obtain ⟨rfl, rfl⟩ := h; rw [addressBytes_sideBySide]; rfl

theorem takeBool_inv {bs r : Bytes} {v : Bool} (h : takeBool bs = .ok (v, r)) :
    bs = putBool v ++ r := by
  match bs, h with
  | b :: bs, h =>
    simp only [takeBool] at h
    split at h
    · simp_all [putBool]
    · split at h <;> simp_all [putBool]

theorem takeBytes_inv : ∀ {bs v r : Bytes}, takeBytes bs = .ok (v, r) → bs = putBytes v ++ r
  | [], v, r, h => by simp [takeBytes] at h
  | [t], v, r, h => by
    simp only [takeBytes] at h
    split at h
    · simp_all [putBytes]
    · split at h <;> simp_all
  | t :: b :: bs, v, r, h => by
    simp only [takeBytes] at h
    split at h
    · simp at h; obtain ⟨rfl, rfl⟩ := h; simp_all [putBytes]
    · split at h
      · split at h
        · rename_i xs r' hx
          have := takeBytes_inv hx
          simp at h; obtain ⟨rfl, rfl⟩ := h; simp_all [putBytes]
        · simp at h
      · simp at h

theorem takeHeader_inv {bs r : Bytes} {h : Header} (e : takeHeader bs = .ok (h, r)) :
    bs = le16 (headerWord h) ++ r := by
  simp only [takeHeader, andThen_eq_ok, Except.ok.injEq, Prod.mk.injEq] at e
  obtain ⟨v, bs', hv, rfl, rfl⟩ := e
  rw [takeU16_inv hv, headerWord_wordHeader]

theorem takeLrcm_inv {bs r : Bytes} {l : Lrcm} (e : takeLrcm bs = .ok (l, r)) :
    bs = le16 (lrcmWord l) ++ r := by
  simp only [takeLrcm, andThen_eq_ok, Except.ok.injEq, Prod.mk.injEq] at e
  obtain ⟨v, bs', hv, rfl, rfl⟩ := e
  rw [takeU16_inv hv, lrcmWord_wordLrcm]

theorem takeSmcs_inv {bs r : Bytes} {c : SmCtrlStatus} (e : takeSmcs bs = .ok (c, r)) :
    bs = le16 (smcsWord c) ++ r := by
  simp only [takeSmcs, andThen_eq_ok] at e
  obtain ⟨v, bs', hv, e⟩ := e
  split at e
  · rename_i h0
    simp only [Except.ok.injEq, Prod.mk.injEq] at e
    obtain ⟨rfl, rfl⟩ := e
    rw [takeU16_inv hv, smcsWord_wordSmcs v h0]
  · cases e

theorem takeSmen_inv {bs r : Bytes} {c : SmEnable} (e : takeSmen bs = .ok (c, r)) :
    bs = le16 (smenWord c) ++ r := by
  simp only [takeSmen, andThen_eq_ok] at e
  obtain ⟨v, bs', hv, e⟩ := e
  split at e
  · rename_i h0
    simp only [Except.ok.injEq, Prod.mk.injEq] at e
    obtain ⟨rfl, rfl⟩ := e
    rw [takeU16_inv hv, smenWord_wordSmen v h0]
  · cases e

theorem takeCaps_inv {bs r : Bytes} {wr : Bool × Bool} (e : takeCaps bs = .ok (wr, r)) :
    bs = capsByte wr.1 wr.2 :: r := by
  simp only [takeCaps, andThen_eq_ok] at e
  obtain ⟨v, bs', hv, e⟩ := e
  split at e
  · rename_i h0
    simp only [Except.ok.injEq, Prod.mk.injEq] at e
    obtain ⟨rfl, rfl⟩ := e
    have hb : ∀ v : U8, v &&& 0xFC = 0 → capsByte (v.getLsbD 1) (v.getLsbD 0) = v := by decide
    rw [takeU8_inv hv, hb v h0]
  · cases e

theorem takeActv_inv {bs r : Bytes} {a : Bool} (e : takeActv bs = .ok (a, r)) :
    bs = actvByte a :: r := by
  simp only [takeActv, andThen_eq_ok] at e
  obtain ⟨v, bs', hv, e⟩ := e
  split at e
  · rename_i h0
    simp only [Except.ok.injEq, Prod.mk.injEq] at e
    obtain ⟨rfl, rfl⟩ := e
    have hb : ∀ v : U8, v &&& 0xFE = 0 → actvByte (v.getLsbD 0) = v := by decide
    rw [takeU8_inv hv, hb v h0]
  · cases e

theorem takeSyncManager_inv {bs r : Bytes} {m : SyncManager} (e : takeSyncManager bs = .ok (m, r)) :
    bs = putSyncManager m ++ r := by
  simp only [takeSyncManager, andThen_eq_ok, Except.ok.injEq, Prod.mk.injEq] at e
  obtain ⟨_, _, h1, _, _, h2, _, _, h3, _, _, h4, rfl, rfl⟩ := e
  rw [takeU16_inv h1, takeU16_inv h2, takeSmcs_inv h3, takeSmen_inv h4]
  simp [putSyncManager, List.append_assoc]

theorem takeFmmu_inv {bs r : Bytes} {f : Fmmu} (e : takeFmmu bs = .ok (f, r)) :
    bs = putFmmu f ++ r := by
  simp only [takeFmmu, andThen_eq_ok, Except.ok.injEq, Prod.mk.injEq] at e
  obtain ⟨_, _, h1, _, _, h2, _, _, h3, _, _, h4, _, _, h5, _, _, h6, _, _, h7, _, _, h8, rfl, rfl⟩ := e
  rw [takeU32_inv h1, takeU16_inv h2, takeU8_inv h3, takeU8_inv h4, takeU16_inv h5, takeU8_inv h6,
    takeCaps_inv h7, takeActv_inv h8]
  simp [putFmmu, List.append_assoc]

theorem takePayload_inv {bs r : Bytes} {p : Payload} (e : takePayload bs = .ok (p, r)) :
    bs = putPayload p ++ r := by
  simp only [takePayload, andThen_eq_ok] at e
  obtain ⟨k, bs', hk, e⟩ := e
  rw [takeU8_inv hk]
  split at e
  · rename_i h0
    simp only [andThen_eq_ok, Except.ok.injEq, Prod.mk.injEq] at e
    obtain ⟨_, _, h, rfl, rfl⟩ := e
    rw [takeBytes_inv h, h0]; rfl
  · split at e
    · rename_i h0
      simp only [andThen_eq_ok, Except.ok.injEq, Prod.mk.injEq] at e
      obtain ⟨_, _, h, rfl, rfl⟩ := e
      rw [takeSyncManager_inv h, h0]; rfl
    · split at e
      · rename_i h0
        simp only [andThen_eq_ok, Except.ok.injEq, Prod.mk.injEq] at e
        obtain ⟨_, _, h, rfl, rfl⟩ := e
        rw [takeFmmu_inv h, h0]; rfl
      · cases e

theorem takeBody_inv {bs r : Bytes} {b : DatagramBody} (e : takeBody bs = .ok (b, r)) :
    bs = putBody b ++ r := by
  simp only [takeBody, andThen_eq_ok, Except.ok.injEq, Prod.mk.injEq] at e
  obtain ⟨_, _, h1, _, _, h2, _, _, h3, _, _, h4, _, _, h5, _, _, h6, rfl, rfl⟩ := e
  rw [takeU8_inv h1, takeAddress_inv h2, takeLrcm_inv h3, takeU16Be_inv h4, takePayload_inv h5,
    takeU16_inv h6]
  simp [putBody, List.append_assoc]

theorem takeDatagram_inv {bs r : Bytes} {d : Datagram} (e : takeDatagram bs = .ok (d, r)) :
    bs = putDatagram d ++ r := by
  simp only [takeDatagram, andThen_eq_ok, Except.ok.injEq, Prod.mk.injEq] at e
  obtain ⟨_, _, h1, _, _, h2, rfl, rfl⟩ := e
  rw [takeU8_inv h1, takeBody_inv h2]
  rfl

end Sys2Proof.Decode
end

