-- ==== Sys2Proof/Laws/State.lean ====
section
/-! SUPPORT. One lemma per field of the state and named update, true by unfolding, so that no proof
unfolds a record update. -/

namespace Sys2Proof.Machine

@[simp] theorem State.respond_fh (s : State) (r : Response) : (s.respond r).fh = s.fh := rfl
@[simp] theorem State.respond_dgs (s : State) (r : Response) : (s.respond r).dgs = s.dgs := rfl
@[simp] theorem State.respond_params (s : State) (r : Response) :
    (s.respond r).params = s.params := rfl
@[simp] theorem State.respond_requests (s : State) (r : Response) :
    (s.respond r).requests = s.requests := rfl
@[simp] theorem State.respond_response (s : State) (r : Response) :
    (s.respond r).response = some r := rfl

@[simp] theorem State.setFrame_fh (s : State) (h : Header) (ds : List Datagram) :
    (s.setFrame h ds).fh = h := rfl
@[simp] theorem State.setFrame_dgs (s : State) (h : Header) (ds : List Datagram) :
    (s.setFrame h ds).dgs = ds := rfl
@[simp] theorem State.setFrame_params (s : State) (h : Header) (ds : List Datagram) :
    (s.setFrame h ds).params = s.params := rfl
@[simp] theorem State.setFrame_requests (s : State) (h : Header) (ds : List Datagram) :
    (s.setFrame h ds).requests = s.requests := rfl
@[simp] theorem State.setFrame_response (s : State) (h : Header) (ds : List Datagram) :
    (s.setFrame h ds).response = s.response := rfl

@[simp] theorem State.setRequests_fh (s : State) (rs : List Request) :
    (s.setRequests rs).fh = s.fh := rfl
@[simp] theorem State.setRequests_dgs (s : State) (rs : List Request) :
    (s.setRequests rs).dgs = s.dgs := rfl
@[simp] theorem State.setRequests_params (s : State) (rs : List Request) :
    (s.setRequests rs).params = s.params := rfl
@[simp] theorem State.setRequests_requests (s : State) (rs : List Request) :
    (s.setRequests rs).requests = rs := rfl
@[simp] theorem State.setRequests_response (s : State) (rs : List Request) :
    (s.setRequests rs).response = s.response := rfl

@[simp] theorem resetBlock_fh (s : State) : (resetBlock s).fh = State.freshHeader := rfl
@[simp] theorem resetBlock_dgs (s : State) : (resetBlock s).dgs = [] := rfl
@[simp] theorem resetBlock_params (s : State) : (resetBlock s).params = s.params := rfl
@[simp] theorem resetBlock_requests (s : State) : (resetBlock s).requests = [] := rfl
@[simp] theorem resetBlock_response (s : State) : (resetBlock s).response = none := rfl

/-- Two responses in a row: only the later one stays (rule R26). -/
@[simp] theorem State.respond_respond (s : State) (r q : Response) :
    (s.respond r).respond q = s.respond q := rfl

end Sys2Proof.Machine
end

