-- ==== Sys2Proof/Laws/Ops.lean ====
section
/-! SUPPORT. One lemma per shared operation, saying once everything it can do. -/

namespace Sys2Proof.Machine

/-- An answer with a result is a next state that differs in the response alone. -/
theorem ret_eq (r : Result) (s : State) : ret r s = .next { s with response := some (.ok r) } := rfl

/-- A refusal is a next state that differs in the response alone. -/
theorem raise_eq (c : Cause) (n : Nat) (s : State) :
    raise c n s = .next { s with response := some (.raised c n) } := rfl

theorem ret_next_iff (r : Result) (s t : State) : ret r s = .next t ↔ s.respond (.ok r) = t := by
  simp [ret]

theorem raise_next_iff (c : Cause) (n : Nat) (s t : State) :
    raise c n s = .next t ↔ s.respond (.raised c n) = t := by simp [raise]

/-- A payload is too long exactly when it does not fit, and the value reported is a raw length. -/
theorem payloadTooLong_isNone (p : Params) (pl : Payload) :
    payloadTooLong p pl = none ↔ pl.fits p = true := by
  cases pl <;> simp only [payloadTooLong, Payload.fits]
  cases p.payloadMax <;> simp

theorem payloadTooLong_isSome (p : Params) (pl : Payload) (n : Nat) :
    payloadTooLong p pl = some n ↔
      ∃ b m, pl = .raw b ∧ p.payloadMax = some m ∧ m < b.length ∧ n = b.length := by
  cases pl with
  | raw b =>
    simp only [payloadTooLong]
    cases hm : p.payloadMax with
    | none => simp
    | some m =>
      by_cases h : m < b.length
      · simp [h, eq_comm]
      · simp only [if_neg h]
        constructor
        · intro h'; cases h'
        · rintro ⟨b', m', hb, hm', hlt, -⟩
          cases hb; cases hm'; exact absurd hlt h
  | sm m => simp [payloadTooLong]
  | fmmu f => simp [payloadTooLong]

/-- Payload check passed: the operation goes on. -/
theorem withPayload_fits {pl : Payload} {s : State} (k : Answer) (h : pl.fits s.params = true) :
    withPayload pl s k = k := by
  simp [withPayload, (payloadTooLong_isNone s.params pl).2 h]

/-- Everything the payload check can do: a refusal that reports the raw length, or going on. -/
theorem withPayload_cases (pl : Payload) (s : State) (k : Answer) :
    (pl.fits s.params = true ∧ withPayload pl s k = k) ∨
    (pl.fits s.params = false ∧ ∃ b m, pl = .raw b ∧ s.params.payloadMax = some m ∧ m < b.length ∧
      withPayload pl s k = raise .payloadTooLong b.length s) := by
  cases h : payloadTooLong s.params pl with
  | none =>
    have hf := (payloadTooLong_isNone _ _).1 h
    exact .inl ⟨hf, withPayload_fits k hf⟩
  | some n =>
    obtain ⟨b, m, hb, hm, hlt, rfl⟩ := (payloadTooLong_isSome _ _ _).1 h
    refine .inr ⟨?_, b, m, hb, hm, hlt, by simp [withPayload, h]⟩
    cases hf : pl.fits s.params with
    | false => rfl
    | true => rw [(payloadTooLong_isNone _ _).2 hf] at h; cases h

/-- The header of a length below 2048. -/
theorem headerWithLength_of_lt {n : Nat} (h : n < 2048) :
    headerWithLength n = some { type := 1, reserved := 0, length := BitVec.ofNat 11 n } := by
  have : ¬ n ≥ Config.lenLimit := by simpa [Config.lenLimit] using h
  simp only [headerWithLength, if_neg this, Config.hdrType]

/-- No header from 2048 on. -/
theorem headerWithLength_of_ge {n : Nat} (h : 2048 ≤ n) : headerWithLength n = none := by
  have : n ≥ Config.lenLimit := by simpa [Config.lenLimit] using h
  simp only [headerWithLength, if_pos this]

@[simp] theorem length_le16 (v : U16) : (le16 v).length = 2 := rfl
@[simp] theorem length_be16 (v : U16) : (be16 v).length = 2 := rfl
@[simp] theorem length_le32 (v : U32) : (le32 v).length = 4 := rfl
@[simp] theorem length_addressBytes (a : U32) : (addressBytes a).length = 4 := rfl
@[simp] theorem length_smBytes (p : Params) (m : SyncManager) : (smBytes p m).length = 8 := rfl
@[simp] theorem length_fmmuBytes (f : Fmmu) : (fmmuBytes f).length = 13 := rfl

/-- The length of a rendered datagram is the length of its payload and twelve more. -/
theorem dgLen_eq (p : Params) (d : Datagram) : dgLen p d = 12 + (payloadBytes p d.payload).length := by
  simp [dgLen, dgBytes, lrcmWire]; omega

/-- Everything `FRAME_APPEND` can do. -/
theorem execFrameAppend_cases (d : Datagram) (s : State) :
    (d.payload.fits s.params = false ∧ ∃ b, d.payload = .raw b ∧
      execFrameAppend d s = .next (s.respond (.raised .payloadTooLong b.length))) ∨
    (d.payload.fits s.params = true ∧ 2048 ≤ dgLen s.params d + s.fh.length.toNat ∧
      execFrameAppend d s =
        .next (s.respond (.raised .outOfRange (dgLen s.params d + s.fh.length.toNat)))) ∨
    (d.payload.fits s.params = true ∧ dgLen s.params d + s.fh.length.toNat < 2048 ∧
      execFrameAppend d s = .next ((s.setFrame
        { type := 1, reserved := 0,
          length := BitVec.ofNat 11 (dgLen s.params d + s.fh.length.toNat) }
        (s.dgs ++ [d])).respond (.ok .nothing))) := by
  rcases withPayload_cases d.payload s (appendFitting d s) with ⟨hf, he⟩ | ⟨hf, b, m, hb, -, -, he⟩
  · by_cases hlt : dgLen s.params d + s.fh.length.toNat < 2048
    · refine .inr (.inr ⟨hf, hlt, ?_⟩)
      rw [execFrameAppend, he, appendFitting, headerWithLength_of_lt hlt]; rfl
    · refine .inr (.inl ⟨hf, by omega, ?_⟩)
      rw [execFrameAppend, he, appendFitting, headerWithLength_of_ge (by omega)]; rfl
  · exact .inl ⟨hf, b, hb, by rw [execFrameAppend, he]; rfl⟩

/-- Everything rendering a datagram can do. -/
theorem renderDatagram_cases (d : Datagram) (s : State) :
    (d.payload.fits s.params = false ∧ ∃ b, d.payload = .raw b ∧
      renderDatagram d s = .next (s.respond (.raised .payloadTooLong b.length))) ∨
    (d.payload.fits s.params = true ∧
      renderDatagram d s = .next (s.respond (.ok (.bytes (dgBytes s.params d))))) := by
  rcases withPayload_cases d.payload s (ret (.bytes (dgBytes s.params d)) s)
    with ⟨hf, he⟩ | ⟨hf, b, m, hb, -, -, he⟩
  · exact .inr ⟨hf, by rw [renderDatagram, he]; rfl⟩
  · exact .inl ⟨hf, b, hb, by rw [renderDatagram, he]; rfl⟩

end Sys2Proof.Machine
end

