-- ==== Sys2Proof/Laws/Exec.lean ====
section
/-! SUPPORT. What one operation can do, said once: every invariant and frame proof cites this and
unfolds no meaning. -/

namespace Sys2Proof.Machine

/-- Rendering a datagram changes nothing but the response. -/
theorem renderDatagram_eq_respond (d : Datagram) (s : State) :
    ∃ r, renderDatagram d s = .next (s.respond r) := by
  rcases renderDatagram_cases d s with ⟨-, b, -, h⟩ | ⟨-, h⟩ <;> exact ⟨_, h⟩

theorem execHdrWithlen_eq_respond (n : U16) (s : State) :
    ∃ r, execHdrWithlen n s = .next (s.respond r) := by
  unfold execHdrWithlen
  cases headerWithLength n.toNat <;> exact ⟨_, rfl⟩

theorem execLrcmNew_eq_respond (more circ : Bool) (len : U16) (s : State) :
    ∃ r, execLrcmNew more circ len s = .next (s.respond r) := by
  unfold execLrcmNew
  split
  · cases s.params.lrcmOverwidth <;> exact ⟨_, rfl⟩
  · exact ⟨_, rfl⟩

theorem execRawRender_eq_respond (b : Bytes) (s : State) :
    ∃ r, execRawRender b s = .next (s.respond r) := by
  rcases withPayload_cases (.raw b) s (ret (.bytes b) s) with ⟨-, h⟩ | ⟨-, b', m, -, -, -, h⟩ <;>
    exact ⟨_, by rw [execRawRender, h]; rfl⟩

/-- Everything an operation can do: it answers, and it writes the frame only as `FRAME_NEW` or as
an accepted `FRAME_APPEND`. -/
theorem exec_cases (i : Instr) (s : State) :
    (i ≠ .frameNew ∧ ∃ r, exec i s = .next (s.respond r)) ∨
    (i = .frameNew ∧ exec i s = .next ((s.setFrame State.freshHeader []).respond (.ok .nothing))) ∨
    (∃ d, i = .frameAppend d ∧ d.payload.fits s.params = true ∧
      dgLen s.params d + s.fh.length.toNat < 2048 ∧
      exec i s = .next ((s.setFrame
        { type := 1, reserved := 0,
          length := BitVec.ofNat 11 (dgLen s.params d + s.fh.length.toNat) }
        (s.dgs ++ [d])).respond (.ok .nothing))) := by
  cases i with
  | frameNew => exact .inr (.inl ⟨rfl, rfl⟩)
  | frameAppend d =>
    rcases execFrameAppend_cases d s with ⟨-, b, -, h⟩ | ⟨-, -, h⟩ | ⟨hf, hlt, h⟩
    · exact .inl ⟨by simp, _, h⟩
    · exact .inl ⟨by simp, _, h⟩
    · exact .inr (.inr ⟨d, rfl, hf, hlt, h⟩)
  | hdrWithlen n => exact .inl ⟨by simp, execHdrWithlen_eq_respond n s⟩
  | lrcmNew more circ len => exact .inl ⟨by simp, execLrcmNew_eq_respond more circ len s⟩
  | rawRender b => exact .inl ⟨by simp, execRawRender_eq_respond b s⟩
  | dgRender d => exact .inl ⟨by simp, renderDatagram_eq_respond d s⟩
  | cmdNop b => exact .inl ⟨by simp, renderDatagram_eq_respond _ s⟩
  | cmdAprd b => exact .inl ⟨by simp, renderDatagram_eq_respond _ s⟩
  | cmdApwr b => exact .inl ⟨by simp, renderDatagram_eq_respond _ s⟩
  | cmdAprw b => exact .inl ⟨by simp, renderDatagram_eq_respond _ s⟩
  | cmdFprd b => exact .inl ⟨by simp, renderDatagram_eq_respond _ s⟩
  | cmdFpwr b => exact .inl ⟨by simp, renderDatagram_eq_respond _ s⟩
  | cmdFprw b => exact .inl ⟨by simp, renderDatagram_eq_respond _ s⟩
  | cmdBrd b => exact .inl ⟨by simp, renderDatagram_eq_respond _ s⟩
  | cmdBwr b => exact .inl ⟨by simp, renderDatagram_eq_respond _ s⟩
  | cmdBrw b => exact .inl ⟨by simp, renderDatagram_eq_respond _ s⟩
  | cmdLrd b => exact .inl ⟨by simp, renderDatagram_eq_respond _ s⟩
  | cmdLwr b => exact .inl ⟨by simp, renderDatagram_eq_respond _ s⟩
  | cmdLrw b => exact .inl ⟨by simp, renderDatagram_eq_respond _ s⟩
  | cmdArmw b => exact .inl ⟨by simp, renderDatagram_eq_respond _ s⟩
  | cmdFrmw b => exact .inl ⟨by simp, renderDatagram_eq_respond _ s⟩
  | _ => exact .inl ⟨by simp, _, rfl⟩

end Sys2Proof.Machine
end

