-- ==== Sys2Proof/Laws/PerInstr.lean ====
section
/-! SUPPORT. A fact about every instruction as syntax, one lemma per constructor: the request that
presents it holds at least its code or word, so a request of no bytes presents none. -/

namespace Sys2Proof.Laws.EncodedNonempty

/-- The request of an instruction has at least one byte. -/
def Statement (i : Instr) : Prop := (Decode.encode i).bytes ≠ []

theorem frameNew : Statement (.frameNew) := by simp [Statement, Decode.encode]
theorem frameAppend (d : Datagram) : Statement (.frameAppend d) := by simp [Statement, Decode.encode]
theorem frameRender : Statement (.frameRender) := by simp [Statement, Decode.encode]
theorem hdrDefault : Statement (.hdrDefault) := by simp [Statement, Decode.encode]
theorem hdrWithlen (n : U16) : Statement (.hdrWithlen n) := by simp [Statement, Decode.encode]
theorem hdrRender16 (h : Header) : Statement (.hdrRender16 h) := by simp [Statement, Decode.encode]
theorem hdrFrom16 (v : U16) : Statement (.hdrFrom16 v) := by simp [Statement, Decode.encode]
theorem hdrLen (v : U16) : Statement (.hdrLen v) := by simp [Statement, Decode.encode]
theorem lrcmNew (more circ : Bool) (len : U16) : Statement (.lrcmNew more circ len) := by simp [Statement, Decode.encode]
theorem lrcmFrom16 (v : U16) : Statement (.lrcmFrom16 v) := by simp [Statement, Decode.encode]
theorem lrcmRender16 (l : Lrcm) : Statement (.lrcmRender16 l) := by simp [Statement, Decode.encode]
theorem dgRender (d : Datagram) : Statement (.dgRender d) := by simp [Statement, Decode.encode]
theorem smcsEnc (c : SmCtrlStatus) : Statement (.smcsEnc c) := by simp [Statement, Decode.encode]
theorem smcsDec (v : U16) : Statement (.smcsDec v) := by simp [Statement, Decode.encode]
theorem smenEnc (e : SmEnable) : Statement (.smenEnc e) := by simp [Statement, Decode.encode]
theorem smenDec (v : U16) : Statement (.smenDec v) := by simp [Statement, Decode.encode]
theorem smRender (m : SyncManager) : Statement (.smRender m) := by simp [Statement, Decode.encode]
theorem fmmuRender (f : Fmmu) : Statement (.fmmuRender f) := by simp [Statement, Decode.encode]
theorem rawRender (b : Bytes) : Statement (.rawRender b) := by simp [Statement, Decode.encode]
theorem cmdNop (b : DatagramBody) : Statement (.cmdNop b) := by simp [Statement, Decode.encode]
theorem cmdAprd (b : DatagramBody) : Statement (.cmdAprd b) := by simp [Statement, Decode.encode]
theorem cmdApwr (b : DatagramBody) : Statement (.cmdApwr b) := by simp [Statement, Decode.encode]
theorem cmdAprw (b : DatagramBody) : Statement (.cmdAprw b) := by simp [Statement, Decode.encode]
theorem cmdFprd (b : DatagramBody) : Statement (.cmdFprd b) := by simp [Statement, Decode.encode]
theorem cmdFpwr (b : DatagramBody) : Statement (.cmdFpwr b) := by simp [Statement, Decode.encode]
theorem cmdFprw (b : DatagramBody) : Statement (.cmdFprw b) := by simp [Statement, Decode.encode]
theorem cmdBrd (b : DatagramBody) : Statement (.cmdBrd b) := by simp [Statement, Decode.encode]
theorem cmdBwr (b : DatagramBody) : Statement (.cmdBwr b) := by simp [Statement, Decode.encode]
theorem cmdBrw (b : DatagramBody) : Statement (.cmdBrw b) := by simp [Statement, Decode.encode]
theorem cmdLrd (b : DatagramBody) : Statement (.cmdLrd b) := by simp [Statement, Decode.encode]
theorem cmdLwr (b : DatagramBody) : Statement (.cmdLwr b) := by simp [Statement, Decode.encode]
theorem cmdLrw (b : DatagramBody) : Statement (.cmdLrw b) := by simp [Statement, Decode.encode]
theorem cmdArmw (b : DatagramBody) : Statement (.cmdArmw b) := by simp [Statement, Decode.encode]
theorem cmdFrmw (b : DatagramBody) : Statement (.cmdFrmw b) := by simp [Statement, Decode.encode]
theorem regHeader (length : U11) : Statement (.regHeader length) := by simp [Statement, Decode.encode, Machine.le16]
theorem regLrcm (l : Lrcm) : Statement (.regLrcm l) := by simp [Statement, Decode.encode, Machine.le16]
theorem regSmcs (c : SmCtrlStatus) : Statement (.regSmcs c) := by simp [Statement, Decode.encode, Machine.le16]
theorem regSmen (e : SmEnable) : Statement (.regSmen e) := by simp [Statement, Decode.encode, Machine.le16]
theorem regFmmuCaps (write read : Bool) : Statement (.regFmmuCaps write read) := by simp [Statement, Decode.encode]
theorem regFmmuActv (active : Bool) : Statement (.regFmmuActv active) := by simp [Statement, Decode.encode]

end Sys2Proof.Laws.EncodedNonempty
end

