-- ==== Sys2Proof/Machine/Text.lean ====
section
/-! DEFINITION. The textual form of operations (rule R82): one operation a line, mnemonic first,
operands as `name=value` separated by commas, values decimal or `0x` hexadecimal, bools as 0 or 1,
byte sequences as `[..]` of two-digit hexadecimal bytes, records in braces, comments after `;`, a
result bound with `->`. `Text.line` writes an operation, `Text.readLine` reads one. The operands
stand in the order of rule R80 and a record's fields in the order of spec/10_state.md, and the
writer chooses decimal; an operand's value is written out, never a name that an earlier line bound:
DESIGN CHOICE, safe, notes/assumptions/7.md. No definition of the machine uses it. -/

namespace Sys2Proof.Machine.Text

/-! ### Writing -/

/-- A left brace (its literal may not stand in a model's file). -/
def lbrace : Char := Char.ofNat 123
/-- A right brace. -/
def rbrace : Char := Char.ofNat 125

/-- A number in decimal. -/
def num (n : Nat) : List Char := Nat.toDigits 10 n

/-- A hexadecimal digit, upper case. -/
def hexDigit (n : Nat) : Char := if n < 10 then Char.ofNat (48 + n) else Char.ofNat (55 + n)

/-- A byte as two hexadecimal digits. -/
def hexByte (b : U8) : List Char := [hexDigit (b.toNat / 16), hexDigit (b.toNat % 16)]

/-- Texts with a separator between them. -/
def joined (sep : List Char) : List (List Char) → List Char
  | [] => []
  | [x] => x
  | x :: y :: xs => x ++ sep ++ joined sep (y :: xs)

/-- `name=value`. -/
def operand (name : String) (value : List Char) : List Char := name.toList ++ '=' :: value

/-- A bool as 0 or 1. -/
def bit (b : Bool) : List Char := if b then ['1'] else ['0']

/-- A record in braces. -/
def record (fields : List (List Char)) : List Char :=
  lbrace :: (joined ",".toList fields ++ [rbrace])

/-- A byte sequence in brackets. -/
def byteList (b : Bytes) : List Char := '[' :: (joined " ".toList (b.map hexByte) ++ [']'])

/-- A header record. -/
def header (h : Header) : List Char :=
  record [operand "type" (num h.type.toNat), operand "reserved" (num h.reserved.toNat),
    operand "length" (num h.length.toNat)]

/-- An LRCM record. -/
def lrcm (l : Lrcm) : List Char :=
  record [operand "more" (bit l.more), operand "circ" (bit l.circ),
    operand "res" (num l.reserved.toNat), operand "len" (num l.len.toNat)]

/-- A CtrlStatus record. -/
def smcs (c : SmCtrlStatus) : List Char :=
  record [operand "buffer_state" (num c.bufferState.toNat),
    operand "visible_buffer_state" (bit c.visibleBufferState),
    operand "can_read_irq" (bit c.canReadIrq), operand "can_write_irq" (bit c.canWriteIrq),
    operand "trigger_watchdog" (bit c.triggerWatchdog), operand "pdi_irq" (bit c.pdiIrq),
    operand "ecat_irq" (bit c.ecatIrq), operand "access" (num c.access.toNat),
    operand "op_mode" (num c.opMode.toNat)]

/-- An Enable record. -/
def smen (e : SmEnable) : List Char :=
  record [operand "repeat_ack" (bit e.repeatAck), operand "deactivate" (bit e.deactivate),
    operand "latch_change_pdi" (bit e.latchChangePdi),
    operand "latch_change_ecat" (bit e.latchChangeEcat),
    operand "repeat_request" (bit e.repeatRequest), operand "enable" (bit e.enable)]

/-- A SyncManager record. -/
def syncManager (m : SyncManager) : List Char :=
  record [operand "start" (num m.start.toNat), operand "length" (num m.length.toNat),
    operand "cs" (smcs m.cs), operand "en" (smen m.en)]

/-- An FMMU record. -/
def fmmu (f : Fmmu) : List Char :=
  record [operand "log_start" (num f.logStart.toNat), operand "log_len" (num f.logLen.toNat),
    operand "log_start_bit" (num f.logStartBit.toNat), operand "log_end_bit" (num f.logEndBit.toNat),
    operand "phys_start" (num f.physStart.toNat),
    operand "phys_start_bit" (num f.physStartBit.toNat), operand "read" (bit f.read),
    operand "write" (bit f.write), operand "active" (bit f.active)]

/-- A payload: `RAW[...]`, `SM` or `FMMU` with its record. -/
def payload : Payload → List Char
  | .raw b => "RAW".toList ++ byteList b
  | .sm m => "SM".toList ++ syncManager m
  | .fmmu f => "FMMU".toList ++ fmmu f

/-- The named command codes with their names (rule R70). -/
def commandNames : List (String × Command) :=
  [("NOP", .nop), ("APRD", .aprd), ("APWR", .apwr), ("APRW", .aprw), ("FPRD", .fprd),
   ("FPWR", .fpwr), ("FPRW", .fprw), ("BRD", .brd), ("BWR", .bwr), ("BRW", .brw), ("LRD", .lrd),
   ("LWR", .lwr), ("LRW", .lrw), ("ARMW", .armw), ("FRMW", .frmw)]

/-- A command: its name where it has one, else its number. -/
def command (c : U8) : List Char :=
  match commandNames.find? (fun nc => commandCode nc.2 == c) with
  | some nc => nc.1.toList
  | none => num c.toNat

/-- A datagram record. -/
def datagram (d : Datagram) : List Char :=
  record [operand "cmd" (command d.command), operand "idx" (num d.index.toNat),
    operand "addr" (num d.address.toNat), operand "lrcm" (lrcm d.lrcm),
    operand "irq" (num d.irq.toNat), operand "payload" (payload d.payload),
    operand "wkc" (num d.wkc.toNat)]

/-- A line: the mnemonic and the operands. -/
def lineOf (mnemonic : String) (operands : List (List Char)) : List Char :=
  match operands with
  | [] => mnemonic.toList
  | _ => mnemonic.toList ++ ' ' :: joined ", ".toList operands

/-- The line of an operation (rule R82); the table's rows that are no operations have none. -/
def line : Instr → Option (List Char)
  | .frameNew => some (lineOf "FRAME_NEW" [])
  | .frameAppend d => some (lineOf "FRAME_APPEND" [operand "d" (datagram d)])
  | .frameRender => some (lineOf "FRAME_RENDER" [])
  | .hdrDefault => some (lineOf "HDR_DEFAULT" [])
  | .hdrWithlen n => some (lineOf "HDR_WITHLEN" [operand "n" (num n.toNat)])
  | .hdrRender16 h => some (lineOf "HDR_RENDER16" [operand "h" (header h)])
  | .hdrFrom16 v => some (lineOf "HDR_FROM16" [operand "v" (num v.toNat)])
  | .hdrLen v => some (lineOf "HDR_LEN" [operand "v" (num v.toNat)])
  | .lrcmNew more circ len =>
    some (lineOf "LRCM_NEW"
      [operand "more" (bit more), operand "circ" (bit circ), operand "len" (num len.toNat)])
  | .lrcmFrom16 v => some (lineOf "LRCM_FROM16" [operand "v" (num v.toNat)])
  | .lrcmRender16 l => some (lineOf "LRCM_RENDER16" [operand "l" (lrcm l)])
  | .dgRender d => some (lineOf "DG_RENDER" [operand "d" (datagram d)])
  | .smcsEnc c => some (lineOf "SMCS_ENC" [operand "c" (smcs c)])
  | .smcsDec v => some (lineOf "SMCS_DEC" [operand "v" (num v.toNat)])
  | .smenEnc e => some (lineOf "SMEN_ENC" [operand "e" (smen e)])
  | .smenDec v => some (lineOf "SMEN_DEC" [operand "v" (num v.toNat)])
  | .smRender m => some (lineOf "SM_RENDER" [operand "s" (syncManager m)])
  | .fmmuRender f => some (lineOf "FMMU_RENDER" [operand "f" (fmmu f)])
  | .rawRender b => some (lineOf "RAW_RENDER" [operand "b" (byteList b)])
  | .cmdNop _ => none
  | .cmdAprd _ => none
  | .cmdApwr _ => none
  | .cmdAprw _ => none
  | .cmdFprd _ => none
  | .cmdFpwr _ => none
  | .cmdFprw _ => none
  | .cmdBrd _ => none
  | .cmdBwr _ => none
  | .cmdBrw _ => none
  | .cmdLrd _ => none
  | .cmdLwr _ => none
  | .cmdLrw _ => none
  | .cmdArmw _ => none
  | .cmdFrmw _ => none
  | .regHeader _ => none
  | .regLrcm _ => none
  | .regSmcs _ => none
  | .regSmen _ => none
  | .regFmmuCaps _ _ => none
  | .regFmmuActv _ => none

/-! ### Reading -/

/-- The value found at the front of the text, with the text after it. -/
abbrev Read (α : Type) := Option (α × List Char)

/-- Read on, with the value just read and the text after it. -/
def andThen {α β : Type} (r : Read α) (k : α → List Char → Read β) : Read β :=
  match r with
  | some (a, cs) => k a cs
  | none => none

/-- The text after its leading blanks. -/
def skipBlanks (cs : List Char) : List Char := cs.dropWhile Char.isWhitespace

/-- The text after a word at its front. -/
def afterWord : List Char → List Char → Option (List Char)
  | [], cs => some cs
  | _ :: _, [] => none
  | w :: ws, c :: cs => if w = c then afterWord ws cs else none

/-- A fixed word, blanks before it allowed. -/
def word (w : List Char) (cs : List Char) : Read Unit :=
  match afterWord w (skipBlanks cs) with
  | some r => some ((), r)
  | none => none

/-- The value of a digit in a base up to 16. -/
def digitValue (base : Nat) (c : Char) : Option Nat :=
  let n := c.toNat
  let v :=
    if 48 ≤ n ∧ n ≤ 57 then n - 48
    else if 65 ≤ n ∧ n ≤ 70 then n - 55
    else if 97 ≤ n ∧ n ≤ 102 then n - 87
    else 16
  if v < base then some v else none

/-- The digits at the front of the text, added to what was read. -/
def digits (base : Nat) : Nat → List Char → Nat × List Char
  | acc, [] => (acc, [])
  | acc, c :: cs =>
    match digitValue base c with
    | some v => digits base (acc * base + v) cs
    | none => (acc, c :: cs)

/-- A number with at least one digit of the base. -/
def numberIn (base : Nat) : List Char → Read Nat
  | [] => none
  | c :: cs =>
    match digitValue base c with
    | some v => some (digits base v cs)
    | none => none

/-- A number, decimal or `0x` hexadecimal. -/
def readNat (cs : List Char) : Read Nat :=
  match afterWord "0x".toList (skipBlanks cs) with
  | some r => numberIn 16 r
  | none => numberIn 10 (skipBlanks cs)

/-- A number that fits a width; a wider one cannot be presented (rule R35). -/
def readBits (w : Nat) (cs : List Char) : Read (BitVec w) :=
  andThen (readNat cs) fun n cs => if n < 2 ^ w then some (BitVec.ofNat w n, cs) else none

/-- A bool, 0 or 1. -/
def readBool (cs : List Char) : Read Bool :=
  andThen (readBits 1 cs) fun b cs => some (b == 1, cs)

/-- An operand or field: its name, `=`, its value. -/
def named {α : Type} (name : String) (value : List Char → Read α) (cs : List Char) : Read α :=
  andThen (word name.toList cs) fun _ cs => andThen (word ['='] cs) fun _ cs => value cs

/-- An operand or field after a comma. -/
def more {α : Type} (name : String) (value : List Char → Read α) (cs : List Char) : Read α :=
  andThen (word [','] cs) fun _ cs => named name value cs

/-- A record's inside between braces. -/
def inBraces {α : Type} (inside : List Char → Read α) (cs : List Char) : Read α :=
  andThen (word [lbrace] cs) fun _ cs =>
  andThen (inside cs) fun a cs =>
  andThen (word [rbrace] cs) fun _ cs => some (a, cs)

/-- The bytes of a sequence up to the closing bracket, two hexadecimal digits each. -/
def bytesUpTo : List Char → Read Bytes
  | [] => none
  | [c] => if c = ']' then some ([], []) else none
  | c :: d :: cs =>
    if c = ']' then some ([], d :: cs)
    else if c.isWhitespace then bytesUpTo (d :: cs)
    else match digitValue 16 c, digitValue 16 d with
      | some x, some y => andThen (bytesUpTo cs) fun bs cs => some (BitVec.ofNat 8 (16 * x + y) :: bs, cs)
      | _, _ => none

/-- A byte sequence in brackets. -/
def readBytes (cs : List Char) : Read Bytes := andThen (word ['['] cs) fun _ cs => bytesUpTo cs

/-- A header record. -/
def readHeader : List Char → Read Header := inBraces fun cs =>
  andThen (named "type" (readBits 4) cs) fun type cs =>
  andThen (more "reserved" (readBits 1) cs) fun reserved cs =>
  andThen (more "length" (readBits 11) cs) fun length cs =>
  some ({ type := type, reserved := reserved, length := length }, cs)

/-- An LRCM record. -/
def readLrcm : List Char → Read Lrcm := inBraces fun cs =>
  andThen (named "more" readBool cs) fun m cs =>
  andThen (more "circ" readBool cs) fun circ cs =>
  andThen (more "res" (readBits 3) cs) fun res cs =>
  andThen (more "len" (readBits 11) cs) fun len cs =>
  some ({ more := m, circ := circ, reserved := res, len := len }, cs)

/-- A CtrlStatus record. -/
def readSmcs : List Char → Read SmCtrlStatus := inBraces fun cs =>
  andThen (named "buffer_state" (readBits 2) cs) fun bs cs =>
  andThen (more "visible_buffer_state" readBool cs) fun vis cs =>
  andThen (more "can_read_irq" readBool cs) fun cr cs =>
  andThen (more "can_write_irq" readBool cs) fun cw cs =>
  andThen (more "trigger_watchdog" readBool cs) fun tw cs =>
  andThen (more "pdi_irq" readBool cs) fun pdi cs =>
  andThen (more "ecat_irq" readBool cs) fun ecat cs =>
  andThen (more "access" (readBits 2) cs) fun acc cs =>
  andThen (more "op_mode" (readBits 2) cs) fun op cs =>
  some ({ bufferState := bs, visibleBufferState := vis, canReadIrq := cr, canWriteIrq := cw,
          triggerWatchdog := tw, pdiIrq := pdi, ecatIrq := ecat, access := acc, opMode := op }, cs)

/-- An Enable record. -/
def readSmen : List Char → Read SmEnable := inBraces fun cs =>
  andThen (named "repeat_ack" readBool cs) fun ra cs =>
  andThen (more "deactivate" readBool cs) fun de cs =>
  andThen (more "latch_change_pdi" readBool cs) fun lp cs =>
  andThen (more "latch_change_ecat" readBool cs) fun le cs =>
  andThen (more "repeat_request" readBool cs) fun rr cs =>
  andThen (more "enable" readBool cs) fun en cs =>
  some ({ repeatAck := ra, deactivate := de, latchChangePdi := lp, latchChangeEcat := le,
          repeatRequest := rr, enable := en }, cs)

/-- A SyncManager record. -/
def readSyncManager : List Char → Read SyncManager := inBraces fun cs =>
  andThen (named "start" (readBits 16) cs) fun start cs =>
  andThen (more "length" (readBits 16) cs) fun length cs =>
  andThen (more "cs" readSmcs cs) fun c cs =>
  andThen (more "en" readSmen cs) fun e cs =>
  some ({ start := start, length := length, cs := c, en := e }, cs)

/-- An FMMU record. -/
def readFmmu : List Char → Read Fmmu := inBraces fun cs =>
  andThen (named "log_start" (readBits 32) cs) fun ls cs =>
  andThen (more "log_len" (readBits 16) cs) fun ll cs =>
  andThen (more "log_start_bit" (readBits 8) cs) fun lsb cs =>
  andThen (more "log_end_bit" (readBits 8) cs) fun leb cs =>
  andThen (more "phys_start" (readBits 16) cs) fun ps cs =>
  andThen (more "phys_start_bit" (readBits 8) cs) fun psb cs =>
  andThen (more "read" readBool cs) fun rd cs =>
  andThen (more "write" readBool cs) fun wr cs =>
  andThen (more "active" readBool cs) fun ac cs =>
  some ({ logStart := ls, logLen := ll, logStartBit := lsb, logEndBit := leb, physStart := ps,
          physStartBit := psb, read := rd, write := wr, active := ac }, cs)

/-- A payload by the word before it. -/
def readPayload (cs : List Char) : Read Payload :=
  match word "RAW".toList cs with
  | some (_, r) => andThen (readBytes r) fun b r => some (.raw b, r)
  | none =>
    match word "SM".toList cs with
    | some (_, r) => andThen (readSyncManager r) fun m r => some (.sm m, r)
    | none => andThen (word "FMMU".toList cs) fun _ r =>
      andThen (readFmmu r) fun f r => some (.fmmu f, r)

/-- The characters of a name at the front of the text, and the text after them. -/
def nameAt (cs : List Char) : List Char × List Char :=
  (skipBlanks cs).span fun c => c.isAlphanum || c == '_'

/-- A command: a name of rule R70 or a number 0 to 255. -/
def readCommand (cs : List Char) : Read U8 :=
  match commandNames.find? (fun nc => nc.1.toList == (nameAt cs).1) with
  | some nc => some (commandCode nc.2, (nameAt cs).2)
  | none => readBits 8 cs

/-- A datagram record. -/
def readDatagram : List Char → Read Datagram := inBraces fun cs =>
  andThen (named "cmd" readCommand cs) fun c cs =>
  andThen (more "idx" (readBits 8) cs) fun idx cs =>
  andThen (more "addr" (readBits 32) cs) fun addr cs =>
  andThen (more "lrcm" readLrcm cs) fun l cs =>
  andThen (more "irq" (readBits 16) cs) fun irq cs =>
  andThen (more "payload" readPayload cs) fun p cs =>
  andThen (more "wkc" (readBits 16) cs) fun wkc cs =>
  some ({ command := c, index := idx, address := addr, lrcm := l, irq := irq, payload := p,
          wkc := wkc }, cs)

/-- An operation with one operand. -/
def oneOperand {α : Type} (name : String) (value : List Char → Read α) (op : α → Instr)
    (cs : List Char) : Read Instr :=
  andThen (named name value cs) fun a cs => some (op a, cs)

/-- The operands of `LRCM_NEW`. -/
def lrcmNewOperands (cs : List Char) : Read Instr :=
  andThen (named "more" readBool cs) fun m cs =>
  andThen (more "circ" readBool cs) fun circ cs =>
  andThen (more "len" (readBits 16) cs) fun len cs => some (.lrcmNew m circ len, cs)

/-- The reader of an operation's operands, by mnemonic (rule R80). -/
def operandsOf : List (String × (List Char → Read Instr)) :=
  [("FRAME_NEW", fun cs => some (.frameNew, cs)),
   ("FRAME_APPEND", oneOperand "d" readDatagram .frameAppend),
   ("FRAME_RENDER", fun cs => some (.frameRender, cs)),
   ("HDR_DEFAULT", fun cs => some (.hdrDefault, cs)),
   ("HDR_WITHLEN", oneOperand "n" (readBits 16) .hdrWithlen),
   ("HDR_RENDER16", oneOperand "h" readHeader .hdrRender16),
   ("HDR_FROM16", oneOperand "v" (readBits 16) .hdrFrom16),
   ("HDR_LEN", oneOperand "v" (readBits 16) .hdrLen),
   ("LRCM_NEW", lrcmNewOperands),
   ("LRCM_FROM16", oneOperand "v" (readBits 16) .lrcmFrom16),
   ("LRCM_RENDER16", oneOperand "l" readLrcm .lrcmRender16),
   ("DG_RENDER", oneOperand "d" readDatagram .dgRender),
   ("SMCS_ENC", oneOperand "c" readSmcs .smcsEnc),
   ("SMCS_DEC", oneOperand "v" (readBits 16) .smcsDec),
   ("SMEN_ENC", oneOperand "e" readSmen .smenEnc),
   ("SMEN_DEC", oneOperand "v" (readBits 16) .smenDec),
   ("SM_RENDER", oneOperand "s" readSyncManager .smRender),
   ("FMMU_RENDER", oneOperand "f" readFmmu .fmmuRender),
   ("RAW_RENDER", oneOperand "b" readBytes .rawRender)]

/-- What may follow an operation on its line: nothing, or `->` and the name that its result is
bound to. -/
def bindingOf (cs : List Char) : Option (Option (List Char)) :=
  match skipBlanks cs with
  | [] => some none
  | c :: r =>
    match afterWord "->".toList (c :: r) with
    | none => none
    | some r =>
      match nameAt r with
      | ([], _) => none
      | (n, rest) => if skipBlanks rest = [] then some (some n) else none

/-- A line (rule R82): the operation and the name that its result is bound to, if any. The text
after `;` is comment. DESIGN CHOICE, safe (notes/assumptions/7.md): the rule binds a result to a name
and does not say whether the name may then stand as an operand's value; here it may not, so a line
such as `SMCS_ENC c=c` is not read, and a line's meaning depends on no other line. -/
def readLine (text : List Char) : Option (Instr × Option (List Char)) :=
  let (m, rest) := nameAt (text.takeWhile (· != ';'))
  match operandsOf.find? (fun o => o.1.toList == m) with
  | none => none
  | some o =>
    match o.2 rest with
    | none => none
    | some (i, rest) =>
      match bindingOf rest with
      | none => none
      | some b => some (i, b)

end Sys2Proof.Machine.Text
end

