-- ==== Sys2Proof/Tests/Slice0.lean ====
section
/-! SUPPORT. The model's own tests. Expected values come from the spec: the source's examples S1 to
S6, the derived vectors of spec/95_test_vectors.md (named in each docstring) and words written out
from the spec's encodings; none is the model's own answer. At the end stands a witness for the
hypotheses of each statement that has any. -/

open Sys2Proof Sys2Proof.Machine

namespace Sys2Proof.Tests

/-! ### Helpers -/

/-- The response that an answer leaves. -/
def responseOf : Answer → Option Response
  | .next s => s.response
  | .fault _ => none
  | .refused _ => none

/-- The frame that an answer leaves: its header and its datagrams. -/
def frameOf : Answer → Option (Header × List Datagram)
  | .next s => some (s.fh, s.dgs)
  | .fault _ => none
  | .refused _ => none

/-- Why an answer is a refusal of the model. -/
def refusalOf : Answer → Option Refusal
  | .next _ => none
  | .fault _ => none
  | .refused r => some r

/-- The response of one operation after reset. -/
def answers (i : Instr) : Option Response := responseOf (exec i State.reset)

/-- `OK` with a result. -/
def okay (r : Result) : Option Response := some (.ok r)

def hdr (type : U4) (reserved : U1) (length : U11) : Header := ⟨type, reserved, length⟩
def lrcm (more circ : Bool) (res : U3) (len : U11) : Lrcm := ⟨more, circ, res, len⟩
def raw (b : Bytes) : Payload := .raw b

/-- `raw(n)` of spec/95_test_vectors.md section 2.7, its payload `n` zero bytes. -/
def rawZeros (n : Nat) : Datagram :=
  { command := 0, index := 0, address := 0, lrcm := lrcm false false 0 (BitVec.ofNat 11 n), irq := 0,
    payload := raw (List.replicate n 0), wkc := 0 }

/-- The datagram of the source's example S1. -/
def s1 : Datagram :=
  { command := 0, index := 5, address := 0x00FF00FF, lrcm := lrcm false false 0 170, irq := 0,
    payload := raw [1, 2, 3], wkc := 1 }

/-- The datagram of the source's example S2. -/
def s2 : Datagram :=
  { command := 2, index := 0x5F, address := 0xFFFF0800, lrcm := lrcm false false 0 8, irq := 0,
    payload := raw [0x00, 0x18, 0x30, 0x00, 0x26, 0x00, 0x01, 0x00], wkc := 0 }

/-- The least datagram, TD1. -/
def td1 : Datagram :=
  { command := 7, index := 0, address := 0, lrcm := lrcm false false 0 0, irq := 0, payload := raw [],
    wkc := 0 }

/-- The datagram of TD2. -/
def td2 : Datagram :=
  { command := 12, index := 0xAB, address := 0x12345678, lrcm := lrcm true true 0 4, irq := 0x1234,
    payload := raw [0xDE, 0xAD, 0xBE, 0xEF], wkc := 0xBEEF }

def csZero : SmCtrlStatus := ⟨0, false, false, false, false, false, false, 0, 0⟩
def enZero : SmEnable := ⟨false, false, false, false, false, false⟩
/-- The CtrlStatus of S5 under the default layout. -/
def csS5 : SmCtrlStatus := ⟨3, true, true, false, true, false, true, 1, 2⟩
/-- The record of TS1. -/
def smTs1 : SyncManager :=
  { start := 0x1800, length := 0x0030, cs := { csZero with pdiIrq := true, access := 1, opMode := 2 },
    en := { enZero with enable := true } }
/-- The record of the source's example S4. -/
def fmS4 : Fmmu :=
  { logStart := 0, logLen := 0x20, logStartBit := 0, logEndBit := 7, physStart := 0x1200,
    physStartBit := 0, read := true, write := false, active := true }

/-- A state whose `PAYLOAD_MAX` is 4. -/
def small : State := { State.reset with params := { paramsDefault with payloadMax := some 4 } }
/-- A state whose `PAYLOAD_MAX` is 8. -/
def eight : State := { State.reset with params := { paramsDefault with payloadMax := some 8 } }
/-- A state whose `LRCM_OVERWIDTH` is `mask`. -/
def masking : State := { State.reset with params := { paramsDefault with lrcmOverwidth := .mask } }
/-- A `SMCS_LAYOUT` other than the default that rule R66 admits: `can_write_irq` at bit 7. -/
def otherLayout : SmcsLayout := { smcsLayoutDefault with canWriteIrq := 7 }
/-- A frame of length `n` that holds one datagram of that length. -/
def filled (n : Nat) : State :=
  { State.reset with fh := hdr 1 0 (BitVec.ofNat 11 n), dgs := [rawZeros (n - 12)] }
/-- The state after reset with one request outstanding. -/
def asked (space : Space) (bytes : Bytes) : State := { State.reset with requests := [⟨space, bytes⟩] }

/-! ### WellFormed refuses ill-formed terms (rules R100, R66, R67, R172) -/

theorem test_format_with_shared_bit_refused :
    ¬ Format.Wf 16 [⟨"a", 7, 4, .uint⟩, ⟨"b", 4, 0, .uint⟩] := by decide
theorem test_format_outside_its_width_refused : ¬ Format.Wf 8 [⟨"a", 8, 7, .uint⟩] := by decide
theorem test_format_with_reversed_bits_refused : ¬ Format.Wf 8 [⟨"a", 2, 3, .uint⟩] := by decide
theorem test_format_with_wide_flag_refused : ¬ Format.Wf 8 [⟨"a", 1, 0, .flag⟩] := by decide

/-- The twelve field bits together at the bottom of the register violate S5 (rule R66). -/
theorem test_layout_packed_at_bottom_refused : ¬ SmcsLayout.Wf
    { bufferState := 10, visibleBufferState := 9, canReadIrq := 8, canWriteIrq := 7,
      triggerWatchdog := 6, pdiIrq := 5, ecatIrq := 4, access := 2, opMode := 0 } := by decide
/-- The twelve field bits together at the top of the register violate S5 (rule R66). -/
theorem test_layout_packed_at_top_refused : ¬ SmcsLayout.Wf
    { bufferState := 14, visibleBufferState := 13, canReadIrq := 12, canWriteIrq := 11,
      triggerWatchdog := 10, pdiIrq := 9, ecatIrq := 8, access := 6, opMode := 4 } := by decide
theorem test_layout_out_of_order_refused :
    ¬ SmcsLayout.Wf { smcsLayoutDefault with access := 0, opMode := 2 } := by decide
theorem test_layout_outside_the_register_refused :
    ¬ SmcsLayout.Wf { smcsLayoutDefault with bufferState := 15 } := by decide
theorem test_other_layout_admitted : otherLayout.Wf := by decide
theorem test_enable_layout_with_shared_bit_refused :
    ¬ SmenLayout.Wf { smenLayoutDefault with deactivate := 9 } := by decide
theorem test_enable_layout_out_of_order_refused :
    ¬ SmenLayout.Wf { smenLayoutDefault with enable := 1, repeatRequest := 0 } := by decide
theorem test_enable_layout_outside_the_register_refused :
    ¬ SmenLayout.Wf { smenLayoutDefault with repeatAck := 16 } := by decide

/-- A raw payload of one byte more than `PAYLOAD_MAX` is ill-formed in each operation that carries
one, and one of `PAYLOAD_MAX` bytes is not. -/
theorem test_instr_with_long_payload_refused :
    [Instr.rawRender [1, 2, 3, 4, 5], .dgRender (rawZeros 5), .frameAppend (rawZeros 5),
      .cmdNop (Decode.bodyOf (rawZeros 5)), .cmdFrmw (Decode.bodyOf (rawZeros 5))].all
      (fun i => !i.wf small.params) = true ∧
    [Instr.rawRender [1, 2, 3, 4], .dgRender (rawZeros 4), .frameAppend (rawZeros 4),
      .cmdNop (Decode.bodyOf (rawZeros 4)), .smRender smTs1, .fmmuRender fmS4].all
      (fun i => i.wf small.params) = true := by decide

/-! ### Decoding: words written out from the spec's encodings -/

/-- The bytes of an operation read by the decoder. -/
def reads (space : Space) (bytes : Bytes) (i : Instr) : Prop :=
  Decode.decodeRequest ⟨space, bytes⟩ = .ok i

/-- The 13 operand bytes of TD1 after its command: index, address (4), LRCM (2), IRQ (2), payload
kind 0 and an empty byte sequence, WKC (2). -/
def zeroBody : Bytes := [0, 0, 0, 0, 0, 0, 0, 0, 0, 0, 0, 0, 0]
/-- The body that those bytes are. -/
def zeroB : DatagramBody :=
  { index := 0, address := 0, lrcm := lrcm false false 0 0, irq := 0, payload := raw [], wkc := 0 }
/-- The operand bytes of TD2 after its command, the raw bytes each after a 1, and a 0 at the end. -/
def bodyTd2 : Bytes :=
  [0xAB, 0x34, 0x12, 0x78, 0x56, 0x04, 0xC0, 0x12, 0x34, 0, 1, 0xDE, 1, 0xAD, 1, 0xBE, 1, 0xEF, 0,
   0xEF, 0xBE]

/-- Rule R80's codes of the operations without operands. -/
theorem test_decode_plain_codes :
    reads .opsel [0x00] .frameNew ∧ reads .opsel [0x02] .frameRender ∧
    reads .opsel [0x10] .hdrDefault := by unfold reads; decide
/-- Rule R80's codes `0x11` to `0x14`, words little-endian: 2047 is FF 07, `0x1014` is 14 10. -/
theorem test_decode_header_codes :
    reads .opsel [0x11, 0xFF, 0x07] (.hdrWithlen 2047) ∧
    reads .opsel [0x12, 0x14, 0x10] (.hdrRender16 (hdr 1 0 20)) ∧
    reads .opsel [0x12, 0x00, 0x08] (.hdrRender16 (hdr 0 1 0)) ∧
    reads .opsel [0x13, 0x14, 0x10] (.hdrFrom16 0x1014) ∧
    reads .opsel [0x14, 0x00, 0xF8] (.hdrLen 0xF800) := by unfold reads; decide
/-- Rule R80's codes `0x20` to `0x22`; the word of TL15 for the third. -/
theorem test_decode_lrcm_codes :
    reads .opsel [0x20, 1, 0, 0x08, 0x00] (.lrcmNew true false 8) ∧
    reads .opsel [0x21, 0xA5, 0xA5] (.lrcmFrom16 0xA5A5) ∧
    reads .opsel [0x22, 0xA5, 0xA5] (.lrcmRender16 (lrcm true false 4 1445)) := by
  unfold reads; decide
/-- Rule R80's codes `0x01` and `0x30` with the datagrams of TD2 and TD1. -/
theorem test_decode_datagram_codes :
    reads .opsel (0x30 :: 0x0C :: bodyTd2) (.dgRender td2) ∧
    reads .opsel (0x01 :: 0x07 :: zeroBody) (.frameAppend td1) := by
  unfold reads; decide
/-- Rule R80's codes `0x40` to `0x44`; the words of TS4, TS8 and TS1. -/
theorem test_decode_syncmanager_codes :
    reads .opsel [0x40, 0x56, 0x3A] (.smcsEnc csS5) ∧
    reads .opsel [0x41, 0x80, 0xC4] (.smcsDec 0xC480) ∧
    reads .opsel [0x42, 0x00, 0x02] (.smenEnc { enZero with repeatAck := true }) ∧
    reads .opsel [0x43, 0x03, 0x02] (.smenDec 0x0203) ∧
    reads .opsel [0x44, 0x00, 0x18, 0x30, 0x00, 0x26, 0x00, 0x01, 0x00] (.smRender smTs1) := by
  unfold reads; decide
/-- Rule R80's codes `0x50` (the bytes of S4) and `0x60`. -/
theorem test_decode_payload_codes :
    reads .opsel [0x50, 0, 0, 0, 0, 0x20, 0, 0, 7, 0, 0x12, 0, 1, 1] (.fmmuRender fmS4) ∧
    reads .opsel [0x60, 1, 0xAA, 1, 0xBB, 0] (.rawRender [0xAA, 0xBB]) := by unfold reads; decide
/-- Rule R70's codes 0 to 7. -/
theorem test_decode_commands_low :
    reads .cmd (0 :: zeroBody) (.cmdNop zeroB) ∧ reads .cmd (1 :: zeroBody) (.cmdAprd zeroB) ∧
    reads .cmd (2 :: zeroBody) (.cmdApwr zeroB) ∧ reads .cmd (3 :: zeroBody) (.cmdAprw zeroB) ∧
    reads .cmd (4 :: zeroBody) (.cmdFprd zeroB) ∧ reads .cmd (5 :: zeroBody) (.cmdFpwr zeroB) ∧
    reads .cmd (6 :: zeroBody) (.cmdFprw zeroB) ∧ reads .cmd (7 :: zeroBody) (.cmdBrd zeroB) := by
  unfold reads; decide
/-- Rule R70's codes 8 to 14. -/
theorem test_decode_commands_high :
    reads .cmd (8 :: zeroBody) (.cmdBwr zeroB) ∧ reads .cmd (9 :: zeroBody) (.cmdBrw zeroB) ∧
    reads .cmd (10 :: zeroBody) (.cmdLrd zeroB) ∧ reads .cmd (11 :: zeroBody) (.cmdLwr zeroB) ∧
    reads .cmd (12 :: zeroBody) (.cmdLrw zeroB) ∧ reads .cmd (13 :: zeroBody) (.cmdArmw zeroB) ∧
    reads .cmd (14 :: zeroBody) (.cmdFrmw zeroB) := by
  unfold reads; decide
/-- The register rows: rule R62 (`0x17FF`), R64 (TL15), R66 (S5), R67 (TS10), R68. -/
theorem test_decode_registers :
    reads .header [0xFF, 0x17] (.regHeader 2047) ∧
    reads .lrcm [0xA5, 0xA5] (.regLrcm (lrcm true false 4 1445)) ∧
    reads .smcs [0x56, 0x3A] (.regSmcs csS5) ∧
    reads .smen [0x03, 0x02] (.regSmen ⟨true, false, false, false, true, true⟩) ∧
    reads .fmmuCaps [0x02] (.regFmmuCaps true false) ∧
    reads .fmmuActv [0x01] (.regFmmuActv true) := by unfold reads; decide

/-- Codes of TF12, refused by rule R81 whatever follows; 15 has no name in rule R70. -/
theorem test_decode_refuses_unknown_codes :
    ([0x03, 0x15, 0x23, 0x31, 0x45, 0x51, 0x61, 0xFF] : Bytes).all
      (fun c => Decode.decodeRequest ⟨.opsel, [c, 0]⟩ == .error (.illegalOp c)) = true ∧
    Decode.decodeRequest ⟨.cmd, 15 :: zeroBody⟩ = .error (.unnamedCommand 15) := by decide
/-- Bytes that are no operand of the operation's types are refused by name. -/
theorem test_decode_refuses_malformed_operands :
    Decode.decodeRequest ⟨.opsel, []⟩ = .error .noOperation ∧
    Decode.decodeRequest ⟨.opsel, [0x11, 0xFF]⟩ = .error .truncated ∧
    Decode.decodeRequest ⟨.opsel, [0x00, 0x00]⟩ = .error .trailingBytes ∧
    Decode.decodeRequest ⟨.opsel, [0x20, 2, 0, 0, 0]⟩ = .error (.badFlag 2) ∧
    Decode.decodeRequest ⟨.opsel, [0x60, 2, 0]⟩ = .error (.badFlag 2) ∧
    Decode.decodeRequest ⟨.opsel, [0x30, 0, 0, 0, 0, 0, 0, 0, 0, 0, 0, 3, 0]⟩ =
      .error (.badPayloadKind 3) ∧
    Decode.decodeRequest ⟨.smcs, [0x80, 0x00]⟩ = .error (.unassignedBits 0x0080) ∧
    Decode.decodeRequest ⟨.smen, [0x04, 0x00]⟩ = .error (.unassignedBits 0x0004) ∧
    Decode.decodeRequest ⟨.fmmuCaps, [0x04]⟩ = .error (.unassignedBits 0x0004) ∧
    Decode.decodeRequest ⟨.fmmuActv, [0x02]⟩ = .error (.unassignedBits 0x0002) ∧
    Decode.decodeRequest ⟨.header, [0x00, 0x18]⟩ = .error (.notAHeader 0x1800) := by decide
/-- Words of the opcode table, operand bytes zero. -/
theorem test_decode_table_words :
    decodeTableWord 8 0x10 = some .hdrDefault ∧ decodeTableWord 8 0x11 = some (.hdrWithlen 0) ∧
    decodeTableWord 8 0x0E = some (.cmdFrmw zeroB) ∧ decodeTableWord 8 0x0F = none ∧
    decodeTableWord 16 0x1014 = some (.regHeader 20) ∧
    decodeTableWord 16 0xA5A5 = some (.regLrcm (lrcm true false 4 1445)) := by decide

/-! ### Frame header: TH1 to TH15 -/

theorem test_hdrDefault : answers .hdrDefault = okay (.header (hdr 1 0 0)) := by decide
/-- TH5, the greatest accepted length. -/
theorem test_hdrWithlen_greatest : answers (.hdrWithlen 2047) = okay (.header (hdr 1 0 2047)) := by
  decide
/-- TH6, the least refused length. -/
theorem test_hdrWithlen_least_refused :
    answers (.hdrWithlen 2048) = some (.raised .outOfRange 2048) := by decide
/-- TH8. -/
theorem test_hdrRender16 : answers (.hdrRender16 (hdr 1 0 2047)) = okay (.word 0x17FF) := by decide
/-- TH9, a header that only `HDR_FROM16` gives. -/
theorem test_hdrRender16_all_ones : answers (.hdrRender16 (hdr 15 1 2047)) = okay (.word 0xFFFF) := by
  decide
/-- TH10. -/
theorem test_hdrFrom16 : answers (.hdrFrom16 0x1014) = okay (.header (hdr 1 0 20)) := by decide
/-- TH12, the reserved bit alone. -/
theorem test_hdrFrom16_reserved : answers (.hdrFrom16 0x0800) = okay (.header (hdr 0 1 0)) := by decide
/-- TH14, the upper five bits ignored. -/
theorem test_hdrLen_ignores_upper_bits : answers (.hdrLen 0xF800) = okay (.length 0) := by decide
/-- TH15. -/
theorem test_hdrLen : answers (.hdrLen 0x17FF) = okay (.length 2047) := by decide

/-! ### LRCM: TL1 to TL19 -/

/-- TL4, the greatest accepted length. -/
theorem test_lrcmNew : answers (.lrcmNew true true 2047) = okay (.lrcm (lrcm true true 0 2047)) := by
  decide
/-- TL10, under both policies: never `0x8801`. -/
theorem test_lrcmNew_overwidth :
    answers (.lrcmNew true false 2049) = some (.raised .lenOverwidth 2049) ∧
    responseOf (exec (.lrcmNew true false 2049) masking) = okay (.lrcm (lrcm true false 0 1)) := by
  decide
/-- TL15. -/
theorem test_lrcmFrom16 : answers (.lrcmFrom16 0xA5A5) = okay (.lrcm (lrcm true false 4 1445)) := by
  decide
/-- TL12, the lowest reserved bit is a field. -/
theorem test_lrcmFrom16_reserved : answers (.lrcmFrom16 0x0800) = okay (.lrcm (lrcm false false 1 0)) := by
  decide
/-- TL18 and TL3: reserved comes from the record, and `circ` sets its own bit alone. -/
theorem test_lrcmRender16 :
    answers (.lrcmRender16 (lrcm false false 7 0)) = okay (.word 0x3800) ∧
    answers (.lrcmRender16 (lrcm false true 0 0)) = okay (.word 0x4000) := by decide
/-- TL19. -/
theorem test_lrcmRender16_more : answers (.lrcmRender16 (lrcm true false 0 8)) = okay (.word 0x8008) := by
  decide

/-! ### Datagram: S1, S2, TD2, TP3, TP4, and the command rows -/

/-- TD2: every byte-order rule at once. -/
theorem test_dgRender_byte_orders : answers (.dgRender td2) = okay (.bytes
    [0x0C, 0xAB, 0x34, 0x12, 0x78, 0x56, 0x04, 0xC0, 0x12, 0x34, 0xDE, 0xAD, 0xBE, 0xEF, 0xEF,
     0xBE]) := by decide
/-- S2 with a SyncManager payload (TP3), and S1 (the source's own bytes). -/
theorem test_dgRender_source_vectors :
    answers (.dgRender { s2 with payload := .sm smTs1 }) = okay (.bytes
      [2, 0x5F, 0xFF, 0xFF, 0, 8, 8, 0, 0, 0, 0, 0x18, 0x30, 0, 0x26, 0, 1, 0, 0, 0]) ∧
    answers (.dgRender s1) = okay (.bytes [0, 5, 255, 0, 255, 0, 170, 0, 0, 0, 1, 2, 3, 1, 0]) := by
  decide
/-- Every command row gives its code of rule R70 as byte 0 (the rest as TD1). -/
theorem test_commands_low :
    [Instr.cmdNop zeroB, .cmdAprd zeroB, .cmdApwr zeroB, .cmdAprw zeroB, .cmdFprd zeroB, .cmdFpwr zeroB,
      .cmdFprw zeroB, .cmdBrd zeroB].map answers =
    ([0, 1, 2, 3, 4, 5, 6, 7] : Bytes).map (fun c => okay (.bytes [c, 0, 0, 0, 0, 0, 0, 0, 0, 0, 0, 0])) := by
  decide
theorem test_commands_high :
    [Instr.cmdBwr zeroB, .cmdBrw zeroB, .cmdLrd zeroB, .cmdLwr zeroB, .cmdLrw zeroB, .cmdArmw zeroB,
      .cmdFrmw zeroB].map answers =
    ([8, 9, 10, 11, 12, 13, 14] : Bytes).map
      (fun c => okay (.bytes [c, 0, 0, 0, 0, 0, 0, 0, 0, 0, 0, 0])) := by decide
/-- TD5, as the `LRD` row: `0x1234` is 12 34 as IRQ and 34 12 as WKC. -/
theorem test_cmdLrd : answers (.cmdLrd
    { index := 0x80, address := 0x00010000, lrcm := lrcm false false 0 4, irq := 0x1234,
      payload := raw [0xAA, 0xBB, 0xCC, 0xDD], wkc := 0x1234 }) = okay (.bytes
    [0x0A, 0x80, 0x01, 0, 0, 0, 0x04, 0, 0x12, 0x34, 0xAA, 0xBB, 0xCC, 0xDD, 0x34, 0x12]) := by decide

/-! ### Frame: S3, TF1 to TF12 -/

/-- TF1 on a frame that holds a datagram. -/
theorem test_frameNew : frameOf (exec .frameNew (filled 12)) = some (hdr 1 0 0, []) := by decide
/-- S3's append. -/
theorem test_frameAppend : frameOf (exec (.frameAppend s2) State.reset) = some (hdr 1 0 20, [s2]) := by
  decide
/-- TF6 and TF7 at the length limit, with the length of the frame before put at 2027 and 2028. -/
theorem test_frameAppend_limit :
    (frameOf (exec (.frameAppend s2) { State.reset with fh := hdr 1 0 2027 })).map (·.1) =
      some (hdr 1 0 2047) ∧
    responseOf (exec (.frameAppend s2) { State.reset with fh := hdr 1 0 2028 }) =
      some (.raised .outOfRange 2048) ∧
    frameOf (exec (.frameAppend s2) { State.reset with fh := hdr 1 0 2028 }) =
      some (hdr 1 0 2028, []) := by decide
/-- S3's render: the source's own bytes. -/
theorem test_frameRender :
    responseOf (exec .frameRender { State.reset with fh := hdr 1 0 20, dgs := [s2] }) = okay (.bytes
      [0x14, 0x10, 2, 0x5F, 0xFF, 0xFF, 0, 8, 8, 0, 0, 0, 0, 0x18, 0x30, 0, 0x26, 0, 1, 0, 0, 0]) := by
  decide
/-- TF2. -/
theorem test_frameRender_empty : answers .frameRender = okay (.bytes [0x00, 0x10]) := by decide

/-! ### SyncManager: TS1 to TS15 (default layouts) -/

/-- TS4, and TS3's greatest word. -/
theorem test_smcsEnc : answers (.smcsEnc csS5) = okay (.word 0x3A56) ∧
    answers (.smcsEnc ⟨3, true, true, true, true, true, true, 3, 3⟩) = okay (.word 0x3B7F) := by decide
/-- TS2: each field at its own place. -/
theorem test_smcsEnc_single_fields :
    [{ csZero with bufferState := 3 }, { csZero with visibleBufferState := true },
      { csZero with canReadIrq := true }, { csZero with canWriteIrq := true },
      { csZero with triggerWatchdog := true }, { csZero with pdiIrq := true },
      { csZero with ecatIrq := true }, { csZero with access := 3 }, { csZero with opMode := 3 }].map
      (fun c => answers (.smcsEnc c)) =
    ([0x3000, 0x0800, 0x0200, 0x0100, 0x0040, 0x0020, 0x0010, 0x000C, 0x0003] : List U16).map
      (fun v => okay (.word v)) := by decide
/-- S5's decode. -/
theorem test_smcsDec : answers (.smcsDec 0x3A56) = okay (.ctrlStatus csS5) := by decide
/-- TS7, only unassigned bits. -/
theorem test_smcsDec_unassigned : answers (.smcsDec 0xC480) = okay (.ctrlStatus csZero) := by decide
/-- TS8: each flag at its own place. -/
theorem test_smenEnc_single_flags :
    [{ enZero with repeatAck := true }, { enZero with deactivate := true },
      { enZero with latchChangePdi := true }, { enZero with latchChangeEcat := true },
      { enZero with repeatRequest := true }, { enZero with enable := true }].map
      (fun e => answers (.smenEnc e)) =
    ([0x0200, 0x0100, 0x0080, 0x0040, 0x0002, 0x0001] : List U16).map (fun v => okay (.word v)) := by
  decide
/-- TS10. -/
theorem test_smenDec : answers (.smenDec 0x0203) =
    okay (.enable ⟨true, false, false, false, true, true⟩) := by decide
/-- TS1. -/
theorem test_smRender : answers (.smRender smTs1) =
    okay (.bytes [0x00, 0x18, 0x30, 0x00, 0x26, 0x00, 0x01, 0x00]) := by decide
/-- TS14: each of the four words little-endian. -/
theorem test_smRender_all_ones : answers (.smRender
    { start := 0xABCD, length := 0x1234, cs := ⟨3, true, true, true, true, true, true, 3, 3⟩,
      en := ⟨true, true, true, true, true, true⟩ }) =
    okay (.bytes [0xCD, 0xAB, 0x34, 0x12, 0x7F, 0x3B, 0xC3, 0x03]) := by decide

/-! ### FMMU and plain payloads: S4, TM2, TM3, TP1, TP5 -/

/-- S4: the source's own bytes. -/
theorem test_fmmuRender : answers (.fmmuRender fmS4) =
    okay (.bytes [0, 0, 0, 0, 0x20, 0, 0, 7, 0, 0x12, 0, 1, 1]) := by decide
/-- TM3. -/
theorem test_fmmuRender_both : answers (.fmmuRender ⟨0x12345678, 0xABCD, 7, 0, 0xFEDC, 7, true, true, false⟩) =
    okay (.bytes [0x78, 0x56, 0x34, 0x12, 0xCD, 0xAB, 7, 0, 0xDC, 0xFE, 7, 3, 0]) := by decide
/-- TP2. -/
theorem test_rawRender : answers (.rawRender [0, 0x18, 0x30, 0, 0x26, 0, 1, 0]) =
    okay (.bytes [0, 0x18, 0x30, 0, 0x26, 0, 1, 0]) := by decide
/-- TP5, with `PAYLOAD_MAX = 4`. -/
theorem test_rawRender_too_long : responseOf (exec (.rawRender [1, 2, 3, 4, 5]) small) =
    some (.raised .payloadTooLong 5) := by decide

/-! ### Register rows: rules R62 (S3's word), R64 (TL15), R66 (S5), R67 (TS10), R68 (TM2) -/

theorem test_register_rows :
    answers (.regHeader 20) = okay (.word 0x1014) ∧
    answers (.regLrcm (lrcm true false 4 1445)) = okay (.word 0xA5A5) ∧
    answers (.regSmcs csS5) = okay (.word 0x3A56) ∧
    answers (.regSmen ⟨true, false, false, false, true, true⟩) = okay (.word 0x0203) ∧
    answers (.regFmmuCaps true false) = okay (.byte 0x02) ∧
    answers (.regFmmuActv true) = okay (.byte 0x01) := by decide

/-! ### The step -/

/-- TF12: an unknown code is answered with `IllegalOp`, the frame as before. -/
theorem test_step_illegal_code :
    responseOf (step (asked .opsel [0x03])) = some (.raised .illegalOp 3) ∧
    frameOf (step (asked .opsel [0x03])) = some (hdr 1 0 0, []) := by decide
/-- A request with a byte too many has no meaning. -/
theorem test_step_malformed :
    refusalOf (step (asked .opsel [0x00, 0x00])) = some (.malformedRequest .trailingBytes) := by decide
/-- A request is taken and answered: S3's first append. -/
theorem test_step_append :
    frameOf (step (asked .opsel (0x01 :: 0x07 :: zeroBody))) = some (hdr 1 0 12, [td1]) := by decide
/-- A word of the table is what the next step runs. -/
theorem test_step_table_word :
    responseOf (step (State.reset.withFetchWord 8 0x02)) = okay (.bytes [0x00, 0x10]) ∧
    responseOf (step (State.reset.withFetchWord 16 0x1014)) = okay (.word 0x1014) := by decide

/-! ### Pseudo-operations (rule R83) -/

/-- `DG_LEN` of S1 is 15 (TD10); `HDR_WIRE` and `LRCM_WIRE` as TH4 and TL6. -/
theorem test_pseudo_lengths_and_wires :
    dgLenOp s1 State.reset = some 15 ∧ hdrWireOp (hdr 1 0 20) State.reset = some [0x14, 0x10] ∧
    lrcmWireOp (lrcm true false 0 8) State.reset = some [0x08, 0x80] := by decide
/-- `FRAME_BUILD` of the S2 datagram is S3, whatever frame was there. -/
theorem test_frameBuild : responseOf (frameBuild [s2] (filled 12)) = okay (.bytes
    [0x14, 0x10, 2, 0x5F, 0xFF, 0xFF, 0, 8, 8, 0, 0, 0, 0, 0x18, 0x30, 0, 0x26, 0, 1, 0, 0, 0]) := by
  decide

/-! ### The textual form (rule R82) -/

/-- Rule R82's own example line, on one line, braces written by their codes. -/
def exampleLine : List Char :=
  "FRAME_APPEND d=".toList ++ Text.lbrace ::
    ("cmd=APWR, idx=0x5F, addr=0xFFFF0800, lrcm=".toList ++ Text.lbrace ::
      ("more=0,circ=0,res=0,len=8".toList ++ Text.rbrace ::
        (", irq=0, payload=RAW[00 18 30 00 26 00 01 00], wkc=0".toList ++
          Text.rbrace :: " ; the APWR datagram".toList)))

/-- Rule R82's example reads as the append of the S2 datagram. -/
theorem test_text_reads_example : Text.readLine exampleLine = some (.frameAppend s2, none) := by decide
/-- Rule R82's bound result, hexadecimal values, and a value too wide for its operand. -/
theorem test_text_reads_lines :
    Text.readLine "LRCM_NEW more=0, circ=0, len=8 -> l".toList =
      some (.lrcmNew false false 8, some ['l']) ∧
    Text.readLine "HDR_FROM16 v=0x1014".toList = some (.hdrFrom16 0x1014, none) ∧
    Text.readLine "HDR_WITHLEN n=65536".toList = none ∧
    Text.readLine "HDR_NONE".toList = none := by decide
/-- A bound name is no value of an operand (the model's choice, notes/assumptions/7.md). -/
theorem test_text_refuses_bound_name : Text.readLine "SMCS_ENC c=c".toList = none := by decide
/-- The writer's lines in the form of rule R82. -/
theorem test_text_writes_lines :
    Text.line .frameNew = some "FRAME_NEW".toList ∧
    Text.line (.lrcmNew false true 8) = some "LRCM_NEW more=0, circ=1, len=8".toList ∧
    Text.line (.rawRender [0, 0xAF]) = some "RAW_RENDER b=[00 AF]".toList := by decide
/-- What the writer writes for records, the reader reads. -/
theorem test_text_round_trips :
    (Text.line (.dgRender { s2 with payload := .sm smTs1 })).bind Text.readLine =
      some (.dgRender { s2 with payload := .sm smTs1 }, none) ∧
    (Text.line (.fmmuRender fmS4)).bind Text.readLine = some (.fmmuRender fmS4, none) ∧
    (Text.line (.smcsEnc csS5)).bind Text.readLine = some (.smcsEnc csS5, none) := by decide

/-! ### Witnesses: for each statement with hypotheses, a state and operands that meet them all -/

/-- A state other than reset without an outstanding request. -/
theorem witness_ResetLeavesAnEmptyFrameAndIdles :
    (filled 12).requests = [] ∧ (filled 12).dgs ≠ State.reset.dgs := by decide

theorem witness_EveryStepKeepsTheFrameInvariant :
    ∃ t, FrameInv (asked .opsel (0x01 :: 0x07 :: zeroBody)) ∧
      step (asked .opsel (0x01 :: 0x07 :: zeroBody)) = .next t ∧ t.dgs = [td1] :=
  ⟨_, by decide, rfl, by decide⟩

theorem witness_StepRunsTheDecodedRequest :
    (asked .opsel [0x11, 0xFF, 0x07]).requests = [⟨.opsel, [0x11, 0xFF, 0x07]⟩] ∧
    Decode.decodeRequest ⟨.opsel, [0x11, 0xFF, 0x07]⟩ = .ok (.hdrWithlen 2047) := by decide

theorem witness_StepRunsTheTableWord : decodeTableWord 8 0x11 = some (.hdrWithlen 0) := by decide

/-- The codes next to a group of named ones: `0x03` and `0xFF`. -/
theorem witness_UnknownOperationCodeIsIllegalOp :
    (0x03#8).toNat ∉ [0x00, 0x01, 0x02, 0x10, 0x11, 0x12, 0x13, 0x14, 0x20, 0x21, 0x22, 0x30, 0x40,
      0x41, 0x42, 0x43, 0x44, 0x50, 0x60] ∧
    (0xFF#8).toNat ∉ [0x00, 0x01, 0x02, 0x10, 0x11, 0x12, 0x13, 0x14, 0x20, 0x21, 0x22, 0x30, 0x40,
      0x41, 0x42, 0x43, 0x44, 0x50, 0x60] ∧
    (asked .opsel [0x03, 7]).requests = [⟨.opsel, 0x03 :: [7]⟩] := by decide

/-- Each outcome of the three is reached. -/
theorem witness_StepStopsOnlyOnAMalformedRequest :
    (∃ t, step State.reset = .next t) ∧
    step (asked .opsel []) = .refused (.malformedRequest .noOperation) := ⟨⟨_, rfl⟩, rfl⟩

theorem witness_OnlyNewAndAppendWriteTheFrame :
    (∃ t, exec .frameRender (filled 12) = .next t ∧ t.dgs = (filled 12).dgs) ∧
    (∃ t, exec .frameNew (filled 12) = .next t ∧ t.dgs = []) ∧
    (∃ t, exec (.frameAppend td1) (filled 12) = .next t ∧ t.dgs = (filled 12).dgs ++ [td1] ∧
      t.fh.length = 24) :=
  ⟨⟨_, rfl, rfl⟩, ⟨_, rfl, rfl⟩, ⟨_, rfl, by decide, by decide⟩⟩

theorem witness_RefusalLeavesNoTrace :
    ∃ t, (asked .opsel [0x11, 0x00, 0x08]).requests = [⟨.opsel, [0x11, 0x00, 0x08]⟩] ∧
      step (asked .opsel [0x11, 0x00, 0x08]) = .next t ∧
      t.response = some (.raised .outOfRange 2048) := ⟨_, rfl, rfl, by decide⟩

/-- Both clauses, each at its least refused length, and 2047 below it. -/
theorem witness_OutOfRangeExactly :
    (∃ t, exec (.hdrWithlen 2048) State.reset = .next t ∧
      t.response = some (.raised .outOfRange 2048)) ∧
    (∃ t, exec (.frameAppend td1) { State.reset with fh := hdr 1 0 2036 } = .next t ∧
      t.response = some (.raised .outOfRange 2048)) ∧
    (∃ t, exec (.frameAppend td1) { State.reset with fh := hdr 1 0 2035 } = .next t ∧
      t.response = some (.ok .nothing)) :=
  ⟨⟨_, rfl, by decide⟩, ⟨_, rfl, by decide⟩, ⟨_, rfl, by decide⟩⟩

theorem witness_LenOverwidthExactly :
    (∃ t, exec (.lrcmNew true false 2048) State.reset = .next t ∧
      t.response = some (.raised .lenOverwidth 2048)) ∧
    (∃ t, exec (.lrcmNew true false 2048) masking = .next t ∧
      t.response = okay (.lrcm (lrcm true false 0 0))) :=
  ⟨⟨_, rfl, by decide⟩, ⟨_, rfl, by decide⟩⟩

/-- The second clause's hypotheses, with one byte more than `PAYLOAD_MAX`; the first's, on it. -/
theorem witness_PayloadTooLongExactlyAndFirst :
    small.params.payloadMax = some 4 ∧ 4 < ([1, 2, 3, 4, 5] : Bytes).length ∧
    (rawZeros 5).payload = .raw [0, 0, 0, 0, 0] ∧
    (∃ t, exec (.frameAppend (rawZeros 5)) { small with fh := hdr 1 0 2047 } = .next t ∧
      t.response = some (.raised .payloadTooLong 5)) :=
  ⟨by decide, by decide, by decide, _, rfl, by decide⟩

/-- Two states with the same parameters and different frames, and two with the same frame and
different responses. -/
theorem witness_AnswersDependOnNothingElse :
    (∃ t t', Sys2Proof.Certificates.readsNoFrame (.hdrLen 0x17FF) ∧
      (filled 12).params = State.reset.params ∧ (filled 12).fh ≠ State.reset.fh ∧
      exec (.hdrLen 0x17FF) (filled 12) = .next t ∧ exec (.hdrLen 0x17FF) State.reset = .next t') ∧
    (∃ t t', (filled 12).fh = ((filled 12).respond (.raised .illegalOp 3)).fh ∧
      exec .frameRender (filled 12) = .next t ∧
      exec .frameRender ((filled 12).respond (.raised .illegalOp 3)) = .next t') :=
  ⟨⟨_, _, trivial, by decide, by decide, rfl, rfl⟩, ⟨_, _, rfl, rfl, rfl⟩⟩

theorem witness_RepeatingAnOperation :
    (∃ t, Instr.frameRender ≠ .frameNew ∧ exec .frameRender (filled 12) = .next t) ∧
    (∃ t, exec .frameNew (filled 12) = .next t) ∧
    (∃ t, exec (.frameAppend td1) (filled 12) = .next t ∧ t.response = okay .nothing) :=
  ⟨⟨_, by decide, rfl⟩, ⟨_, rfl⟩, ⟨_, rfl, by decide⟩⟩

/-- The two sides of the limit. -/
theorem witness_HeaderConstructors :
    (2047#16).toNat = (2047#11).toNat ∧ 2048 ≤ (2048#16).toNat ∧ 2048 ≤ (65535#16).toNat := by decide

theorem witness_HeaderRoundTrips : (2047#16).toNat < 2048 ∧ 2048 ≤ (2048#16).toNat := by decide

/-- The three clauses, at the limit and under both policies. -/
theorem witness_LrcmNewKeepsItsOperands :
    (2047#16).toNat = (2047#11).toNat ∧
    (2048 ≤ (2048#16).toNat ∧ State.reset.params.lrcmOverwidth = .reject) ∧
    (2048 ≤ (2048#16).toNat ∧ masking.params.lrcmOverwidth = .mask) := by decide

theorem witness_LrcmRoundTrips : (2047#16).toNat < 2048 := by decide

theorem witness_DatagramRenderByteByByte :
    (Decode.bodyOf td2).payload.fits State.reset.params = true ∧
    (Decode.bodyOf (rawZeros 4)).payload.fits small.params = true := by decide

/-- Each payload kind. -/
theorem witness_DatagramLength :
    td2.payload = .raw [0xDE, 0xAD, 0xBE, 0xEF] ∧ { td2 with payload := .sm smTs1 }.payload = .sm smTs1 ∧
    { td2 with payload := .fmmu fmS4 }.payload = .fmmu fmS4 ∧
    td2.payload.fits small.params = true := by decide

theorem witness_CommandRowsRenderTheirCode :
    ((Instr.cmdFrmw, 14) : (DatagramBody → Instr) × U8) ∈ Sys2Proof.Certificates.commandRows ∧
    zeroB.payload.fits State.reset.params = true :=
  ⟨by simp [Sys2Proof.Certificates.commandRows], by decide⟩

/-- The two sides of the limit: a 20-byte datagram on a frame of 2027 and of 2028. -/
theorem witness_FrameAppendStoresOrRefuses :
    s2.payload.fits State.reset.params = true ∧
    12 + (payloadBytes paramsDefault s2.payload).length + (hdr 1 0 2027).length.toNat =
      (2047#11).toNat ∧
    2048 ≤ 12 + (payloadBytes paramsDefault s2.payload).length + (hdr 1 0 2028).length.toNat := by
  decide

theorem witness_RenderedFrameLayout : FrameInv (filled 12) ∧ (filled 12).dgs[0]? = some (rawZeros 0) := by
  decide

/-- P3c's frame of 170 datagrams. -/
def full : State := { State.reset with fh := hdr 1 0 2040, dgs := List.replicate 170 td1 }

theorem witness_TheStoreIsNeverFoundFull : FrameInv full ∧ full.dgs.length = 170 := by
  have h : dgLen paramsDefault td1 = 12 := rfl
  have hl : full.dgs.length = 170 := List.length_replicate
  refine ⟨⟨rfl, rfl, ?_, by decide, by rw [hl]; decide⟩, hl⟩
  simp only [storedLength, full, State.reset, List.map_replicate, h, List.sum_replicate]
  decide

theorem witness_FrameBuildYieldsTheWholeFrame :
    (∀ d ∈ [s2, td1], d.payload.fits State.reset.params = true) ∧
    ([s2, td1].map (dgLen State.reset.params)).sum = (32#11).toNat := by decide

theorem length_rawZeros (p : Params) (n : Nat) : (payloadBytes p (rawZeros n).payload).length = n :=
  List.length_replicate

/-- Both clauses: after TD1 (12 bytes), a datagram of 2036 bytes is one too long (2048); and under
`PAYLOAD_MAX = 4` a raw payload of 5 bytes is too long. -/
theorem witness_FrameBuildStopsAtTheFirstRefusal :
    ((∀ x ∈ [td1], x.payload.fits State.reset.params = true) ∧
      ([td1].map (dgLen State.reset.params)).sum = (12#11).toNat ∧
      (rawZeros 2024).payload.fits State.reset.params = true ∧
      2048 ≤ dgLen State.reset.params (rawZeros 2024) + (12#11).toNat) ∧
    ((∀ x ∈ [td1], x.payload.fits small.params = true) ∧
      ([td1].map (dgLen small.params)).sum = (12#11).toNat ∧
      (rawZeros 5).payload = .raw [0, 0, 0, 0, 0] ∧ small.params.payloadMax = some 4 ∧
      4 < ([0, 0, 0, 0, 0] : Bytes).length) := by
  refine ⟨⟨by decide, by decide, rfl, ?_⟩, by decide⟩
  rw [dgLen_eq, length_rawZeros]
  decide

/-- A format with an unassigned bit, bit 2, its fields at the ends of their ranges. -/
theorem witness_PackPutsEachFieldAtItsOwnBits :
    Format.Wf 6 [⟨"a", 5, 3, .uint⟩, ⟨"b", 1, 1, .flag⟩, ⟨"c", 0, 0, .flag⟩] ∧
    List.Forall₂ (fun f x => x < 2 ^ f.width)
      ([⟨"a", 5, 3, .uint⟩, ⟨"b", 1, 1, .flag⟩, ⟨"c", 0, 0, .flag⟩] : Format) [7, 0, 1] :=
  ⟨by decide, .cons (by decide) (.cons (by decide) (.cons (by decide) .nil))⟩

theorem witness_UnpackUndoesPack :
    Format.Wf 16 fHdr ∧ List.Forall₂ (fun f x => x < 2 ^ f.width) fHdr [15, 1, 2047] :=
  ⟨by decide, .cons (by decide) (.cons (by decide) (.cons (by decide) .nil))⟩

theorem witness_PackAfterUnpackKeepsTheAssignedBits :
    Format.Wf 16 (fSmcs smcsLayoutDefault) ∧ Format.Wf 8 fCaps := by decide

/-- The default parameters, and a layout other than the default. -/
theorem witness_EveryFlagHasItsOwnBit :
    State.reset.params.Wf ∧ { paramsDefault with smcsLayout := otherLayout }.Wf := by decide

theorem witness_SyncManagerRegistersRoundTrip :
    State.reset.params.Wf ∧ { paramsDefault with smcsLayout := otherLayout }.Wf := by decide

theorem witness_FmmuRenderIsInjective :
    exec (.fmmuRender fmS4) State.reset = exec (.fmmuRender { fmS4 with write := false }) State.reset :=
  rfl

theorem witness_RawRenderIsTheIdentity : (Payload.raw [1, 2, 3, 4]).fits small.params = true := by decide

/-- Without a bound, and under the least `PAYLOAD_MAX` that admits the eight bytes of a SyncManager. -/
theorem witness_StructuredPayloadsAreTheirBytes :
    (exec (payloadRenderOp (.sm smTs1)) State.reset = .next { State.reset with
        response := some (.ok (.bytes [0x00, 0x18, 0x30, 0x00, 0x26, 0x00, 0x01, 0x00])) } ∧
      (raw [0x00, 0x18, 0x30, 0x00, 0x26, 0x00, 0x01, 0x00]).fits State.reset.params = true) ∧
    (exec (payloadRenderOp (.sm smTs1)) eight = .next { eight with
        response := some (.ok (.bytes [0x00, 0x18, 0x30, 0x00, 0x26, 0x00, 0x01, 0x00])) } ∧
      (raw [0x00, 0x18, 0x30, 0x00, 0x26, 0x00, 0x01, 0x00]).fits eight.params = true) :=
  ⟨⟨rfl, by decide⟩, ⟨rfl, by decide⟩⟩

theorem witness_RegisterRowsPackTheirFields :
    State.reset.params.smcsLayout = smcsLayoutDefault ∧
    State.reset.params.smenLayout = smenLayoutDefault := ⟨rfl, rfl⟩

theorem witness_EncodeUndoesDecode :
    Decode.decodeRequest ⟨.cmd, 7 :: zeroBody⟩ = .ok (.cmdBrd zeroB) := by decide

end Sys2Proof.Tests
end

section
/-! The frame context (spec/10_state.md): who writes `FH` and `DGS`. -/

namespace Sys2Proof.Proofs
open Sys2Proof.Machine

/-- The accumulator after an accepted append (rule R143): the eleven bits hold the exact sum. -/
theorem appendedLength_toNat (s : State) (d : Datagram)
    (h : dgLen s.params d + s.fh.length.toNat < 2048) :
    (BitVec.ofNat 11 (dgLen s.params d + s.fh.length.toNat)).toNat =
      s.fh.length.toNat + 12 + (payloadBytes s.params d.payload).length := by
  rw [BitVec.toNat_ofNat, Nat.mod_eq_of_lt h, dgLen_eq]
  omega

/-- Settles O9, by the three things that an operation can do to the frame (`exec_cases`). -/
theorem onlyNewAndAppendWriteTheFrame : Obligations.OnlyNewAndAppendWriteTheFrame := by
  intro i s t h
  rcases exec_cases i s with ⟨-, r, hr⟩ | ⟨hi, hr⟩ | ⟨d, hi, -, hlt, hr⟩ <;>
    obtain rfl := Host.Outcome.next.inj (hr.symm.trans h)
  · exact .inl ⟨rfl, rfl⟩
  · exact .inr (.inl ⟨hi, rfl, rfl⟩)
  · exact .inr (.inr ⟨d, hi, rfl, rfl, rfl, rfl, appendedLength_toNat s d hlt⟩)

end Sys2Proof.Proofs
end

section
/-! Repeating an operation (spec/20_memory.md): what a second performance on the state left by the
first one does. -/

namespace Sys2Proof.Proofs
open Sys2Proof.Machine

/-- No operation reads the response of an earlier one (rule R26), and each one replaces it. -/
theorem exec_respond (i : Instr) (s : State) (q : Response) : exec i (s.respond q) = exec i s := by
  cases i <;> rfl

/-- The state that an operation other than `FRAME_APPEND` leaves is its own answer to that
operation. -/
theorem exec_again {i : Instr} {s t : State} (hi : ∀ d, i ≠ .frameAppend d)
    (h : exec i s = .next t) : exec i t = .next t := by
  rcases exec_cases i s with ⟨-, r, hr⟩ | ⟨rfl, hr⟩ | ⟨d, hd, -⟩
  · obtain rfl := Host.Outcome.next.inj (hr.symm.trans h)
    rw [exec_respond, hr]
  · obtain rfl := Host.Outcome.next.inj (hr.symm.trans h)
    rfl
  · exact absurd hd (hi d)

/-- The datagram store after an append with status `OK` (rule R143). -/
theorem dgs_of_frameAppend_ok {d : Datagram} {s t : State} (h : exec (.frameAppend d) s = .next t)
    (hok : t.response = some (.ok .nothing)) : t.dgs = s.dgs ++ [d] := by
  rcases execFrameAppend_cases d s with ⟨-, b, -, hr⟩ | ⟨-, -, hr⟩ | ⟨-, -, hr⟩ <;>
    obtain rfl := Host.Outcome.next.inj (hr.symm.trans h)
  · simp at hok
  · simp at hok
  · rfl

/-- Settles O15: the frame context is O9's, a repetition is `exec_again`, and an accepted append
stores its datagram at the end. -/
theorem repeatingAnOperation : Obligations.RepeatingAnOperation := by
  refine ⟨fun i s t hNew hAppend h => ?_, fun i s t hAppend h => exec_again hAppend h,
    fun d s t h hok => by simp [dgs_of_frameAppend_ok h hok]⟩
  rcases onlyNewAndAppendWriteTheFrame i s t h with hSame | ⟨hi, -⟩ | ⟨d, hi, -⟩
  · exact hSame
  · exact absurd hi hNew
  · exact absurd hi (hAppend d)

end Sys2Proof.Proofs
end

section
/-! Generic bit fields (spec/40_bitfield.md): what the extraction of a field sees of a packed
word, and that packing writes assigned bits only. -/

namespace Sys2Proof.Proofs
open Sys2Proof.Machine

/-- Rule R102's `v[hi:lo]` is the extraction of the field's bits. -/
theorem toNat_extractLsb'_field {n : Nat} (f : Field) (v : BitVec n) :
    (v.extractLsb' f.lo f.width).toNat = getField f v :=
  BitVec.extractLsb'_toNat ..

theorem getField_or {n : Nat} (f : Field) (v w : BitVec n) :
    getField f (v ||| w) = getField f v ||| getField f w := by
  simp [getField, Nat.shiftRight_or_distrib, Nat.or_mod_two_pow]

/-- A field reads back the value put at its own bits. -/
theorem getField_putField_same {n : Nat} {f : Field} {x : Nat} (hlo : f.lo ≤ f.hi) (hhi : f.hi < n)
    (hx : x < 2 ^ f.width) : getField f (putField n f x) = x := by
  apply Nat.eq_of_testBit_eq
  intro j
  rw [testBit_getField, getLsbD_putField]
  by_cases hj : j < f.width
  · have hn : f.lo + j < n := by unfold Field.width at hj; omega
    simp [hj, hn]
  · have hz : x.testBit j = false :=
      Nat.testBit_lt_two_pow (hx.trans_le (Nat.pow_le_pow_right (by decide) (by omega)))
    simp [hj, hz]

/-- A field sees nothing of what is put at the bits of a field disjoint from it. -/
theorem getField_putField_disjoint (n : Nat) {f g : Field} (x : Nat) (hf : f.lo ≤ f.hi)
    (hg : g.lo ≤ g.hi) (h : f.Disjoint g) : getField g (putField n f x) = 0 := by
  apply Nat.eq_of_testBit_eq
  intro j
  rw [testBit_getField, getLsbD_putField, Nat.zero_testBit]
  by_cases hj : j < g.width
  · by_cases hle : f.lo ≤ g.lo + j
    · have hout : ¬ g.lo + j - f.lo < f.width := by
        unfold Field.width at hj ⊢
        rcases h with h | h <;> omega
      simp [hout]
    · simp [hle]
  · simp [hj]

/-- A field sees nothing of a packed word whose fields are all disjoint from it. -/
theorem getField_bfPack_disjoint (n : Nat) {g : Field} {F : Format} (xs : List Nat)
    (hg : g.lo ≤ g.hi) (hF : ∀ f ∈ F, f.lo ≤ f.hi ∧ f.Disjoint g) :
    getField g (bfPack n F xs) = 0 := by
  induction F generalizing xs with
  | nil => simp [bfPack, getField]
  | cons f F ih =>
    cases xs with
    | nil => simp [bfPack, getField]
    | cons x xs =>
      obtain ⟨⟨hlo, hdis⟩, hF⟩ := List.forall_mem_cons.1 hF
      rw [bfPack, getField_or, getField_putField_disjoint n x hlo hg hdis, ih xs hF, Nat.or_zero]

/-- Unpacking a packed word reads back every value: each field finds its own value at its own bits
and nothing of the other fields. -/
theorem bfUnpack_bfPack {n : Nat} {F : Format} {xs : List Nat} (hF : F.Wf n)
    (hxs : List.Forall₂ (fun f x => x < 2 ^ f.width) F xs) : bfUnpack F (bfPack n F xs) = xs := by
  induction hxs with
  | nil => rfl
  | @cons f x F xs hx _ ih =>
    obtain ⟨hrange, hdisjoint⟩ := hF
    obtain ⟨⟨hlo, hhi, -⟩, hrange⟩ := List.forall_mem_cons.1 hrange
    obtain ⟨hfF, hdisjoint⟩ := List.pairwise_cons.1 hdisjoint
    have hhead : getField f (bfPack n (f :: F) (x :: xs)) = x := by
      rw [bfPack, getField_or, getField_putField_same hlo hhi hx,
        getField_bfPack_disjoint n xs hlo fun g hg => ⟨(hrange g hg).1, (hfF g hg).symm⟩,
        Nat.or_zero]
    have htail : ∀ g ∈ F, getField g (bfPack n (f :: F) (x :: xs)) = getField g (bfPack n F xs) := by
      intro g hg
      rw [bfPack, getField_or, getField_putField_disjoint n x hlo (hrange g hg).1 (hfF g hg),
        Nat.zero_or]
    calc bfUnpack (f :: F) (bfPack n (f :: F) (x :: xs))
      _ = x :: F.map fun g => getField g (bfPack n (f :: F) (x :: xs)) :=
        congrArg (· :: _) hhead
      _ = x :: bfUnpack F (bfPack n F xs) := congrArg (x :: ·) (List.map_congr_left htail)
      _ = x :: xs := congrArg (x :: ·) (ih ⟨hrange, hdisjoint⟩)

/-- A field whose value is all ones contributes every bit that the field covers, so every bit that
another value contributes. -/
theorem getLsbD_putField_ones {n : Nat} {f : Field} {x j : Nat}
    (h : (putField n f x).getLsbD j = true) :
    (putField n f (2 ^ f.width - 1)).getLsbD j = true := by
  rw [getLsbD_putField] at h ⊢
  simp_all [Nat.testBit_two_pow_sub_one]

/-- Every bit set in a packed word is an assigned one, whatever the values (rule R101). -/
theorem getLsbD_bfAssigned_of_bfPack {n : Nat} {F : Format} {xs : List Nat} {j : Nat}
    (h : (bfPack n F xs).getLsbD j = true) : (bfAssigned n F).getLsbD j = true := by
  induction F generalizing xs with
  | nil => simp [bfPack] at h
  | cons f F ih =>
    cases xs with
    | nil => simp [bfPack] at h
    | cons x xs =>
      rw [bfPack, BitVec.getLsbD_or, Bool.or_eq_true] at h
      rw [bfAssigned, BitVec.getLsbD_or, Bool.or_eq_true]
      exact h.imp getLsbD_putField_ones ih

/-- The unassigned bits of a packed word are 0. -/
theorem bfPack_and_not_bfAssigned (n : Nat) (F : Format) (xs : List Nat) :
    bfPack n F xs &&& ~~~ bfAssigned n F = 0 := by
  apply BitVec.eq_of_getLsbD_eq
  intro j hj
  cases hp : (bfPack n F xs).getLsbD j with
  | false => simp [hp]
  | true => simp [getLsbD_bfAssigned_of_bfPack hp]

/-- Settles O35: unpacking reads back what was packed (`bfUnpack_bfPack`), so the field at place
`k` holds the value at place `k`; only assigned bits are written; and a field's value is the
extraction of its bits. -/
theorem packPutsEachFieldAtItsOwnBits : Obligations.PackPutsEachFieldAtItsOwnBits := by
  intro n F xs hF hxs
  refine ⟨fun k f x hf hx => ?_, bfPack_and_not_bfAssigned n F xs, fun v => ?_⟩
  · have hk : (bfUnpack F (bfPack n F xs))[k]? = some x := by rw [bfUnpack_bfPack hF hxs, hx]
    rw [toNat_extractLsb'_field]
    simpa [bfUnpack, hf] using hk
  · simp only [bfUnpack, toNat_extractLsb'_field]

end Sys2Proof.Proofs
end

section
/-! The frame header (spec/41_frame_header.md): what `HDR_WITHLEN` does on each side of the limit
and the word that `HDR_RENDER16` packs. -/

namespace Sys2Proof.Proofs
open Sys2Proof.Machine

/-- Below the limit `HDR_WITHLEN` answers the header of its length (rule R112). -/
theorem execHdrWithlen_of_lt {n : U16} (s : State) (hn : n.toNat < 2048) :
    execHdrWithlen n s =
      ret (.header { type := 1, reserved := 0, length := BitVec.ofNat 11 n.toNat }) s := by
  rw [execHdrWithlen, headerWithLength_of_lt hn]

/-- From the limit on `HDR_WITHLEN` is refused, and the refusal reports the length (rule R112). -/
theorem execHdrWithlen_of_ge {n : U16} (s : State) (hn : 2048 ≤ n.toNat) :
    execHdrWithlen n s = raise .outOfRange n.toNat s := by
  rw [execHdrWithlen, headerWithLength_of_ge hn]

/-- Settles O16, by the two sides of the limit; a length of eleven bits is below it and is kept
whole. -/
theorem headerConstructors : Obligations.HeaderConstructors := by
  refine fun s => ⟨rfl, fun n l hnl => ?_, fun n hn => execHdrWithlen_of_ge s hn⟩
  have hn : n.toNat < 2048 := hnl ▸ l.isLt
  have hl : BitVec.ofNat 11 n.toNat = l := by rw [hnl, BitVec.ofNat_toNat, BitVec.setWidth_eq]
  rw [← hl]
  exact execHdrWithlen_of_lt s hn

/-- Settles O17: the packed word is the three fields at their places (`hdrU16_eq`). -/
theorem headerRender16PacksTheFields : Obligations.HeaderRender16PacksTheFields := by
  intro h s
  rw [BitVec.or_assoc, ← hdrU16_eq]
  rfl

end Sys2Proof.Proofs
end

section
/-! Refusals (spec/60_exceptions.md): why an operation answers with a status other than `OK`. -/

namespace Sys2Proof.Proofs
open Sys2Proof.Machine

/-- The grounds on which an operation is refused in a state (rules R182 to R184), each with its
status and the value reported (rule R181; the one of `PayloadTooLong` is left open). -/
inductive RefusalGround (s : State) : Instr → Cause → Nat → Prop
  | headerLength {n : U16} (hn : 2048 ≤ n.toNat) :
    RefusalGround s (.hdrWithlen n) .outOfRange n.toNat
  | frameLength {d : Datagram} (hfits : d.payload.fits s.params = true)
    (hsum : 2048 ≤ dgLen s.params d + s.fh.length.toNat) :
    RefusalGround s (.frameAppend d) .outOfRange (dgLen s.params d + s.fh.length.toNat)
  | lrcmLength {more circ : Bool} {len : U16} (hlen : 2048 ≤ len.toNat)
    (hpolicy : s.params.lrcmOverwidth = .reject) :
    RefusalGround s (.lrcmNew more circ len) .lenOverwidth len.toNat
  | payloadLength {i : Instr} {n : Nat} (hwf : i.wf s.params = false) :
    RefusalGround s i .payloadTooLong n

section
variable {s t : State} {c : Cause} {n : Nat}

/-- Rendering a datagram is refused on account of its payload's length only. -/
theorem renderDatagram_raised {d : Datagram} (h : renderDatagram d s = .next t)
    (hr : t.response = some (.raised c n)) :
    c = .payloadTooLong ∧ d.payload.fits s.params = false := by
  rcases renderDatagram_cases d s with ⟨hf, b, -, he⟩ | ⟨-, he⟩ <;>
    obtain rfl := Host.Outcome.next.inj (he.symm.trans h) <;> cases hr
  exact ⟨rfl, hf⟩

theorem refusalGround_of_renderDatagram {i : Instr} {d : Datagram}
    (hi : i.wf s.params = d.payload.fits s.params) (h : renderDatagram d s = .next t)
    (hr : t.response = some (.raised c n)) : RefusalGround s i c n := by
  obtain ⟨rfl, hf⟩ := renderDatagram_raised h hr
  exact .payloadLength (hi.trans hf)

theorem refusalGround_of_frameAppend {d : Datagram} (h : execFrameAppend d s = .next t)
    (hr : t.response = some (.raised c n)) : RefusalGround s (.frameAppend d) c n := by
  rcases execFrameAppend_cases d s with ⟨hf, b, -, he⟩ | ⟨hf, hge, he⟩ | ⟨-, -, he⟩ <;>
    obtain rfl := Host.Outcome.next.inj (he.symm.trans h) <;> cases hr
  · exact .payloadLength hf
  · exact .frameLength hf hge

theorem refusalGround_of_hdrWithlen {m : U16} (h : execHdrWithlen m s = .next t)
    (hr : t.response = some (.raised c n)) : RefusalGround s (.hdrWithlen m) c n := by
  by_cases hm : 2048 ≤ m.toNat
  · rw [execHdrWithlen_of_ge s hm, raise_next_iff] at h
    cases h; cases hr
    exact .headerLength hm
  · rw [execHdrWithlen_of_lt s (by omega), ret_next_iff] at h
    cases h; cases hr

theorem refusalGround_of_lrcmNew {more circ : Bool} {len : U16}
    (h : execLrcmNew more circ len s = .next t) (hr : t.response = some (.raised c n)) :
    RefusalGround s (.lrcmNew more circ len) c n := by
  unfold execLrcmNew at h
  split at h
  next hlen =>
    cases hp : s.params.lrcmOverwidth <;> rw [hp] at h <;> cases h <;> cases hr
    exact .lrcmLength hlen hp
  next => cases h; cases hr

theorem refusalGround_of_rawRender {b : Bytes} (h : execRawRender b s = .next t)
    (hr : t.response = some (.raised c n)) : RefusalGround s (.rawRender b) c n := by
  unfold execRawRender at h
  rcases withPayload_cases (.raw b) s (ret (.bytes b) s) with ⟨-, he⟩ | ⟨hf, b', m, -, -, -, he⟩ <;>
    rw [he] at h <;> cases h <;> cases hr
  exact .payloadLength hf

/-- Every refusal has one of the grounds: the other operations always answer `OK`. -/
theorem refusalGround_of_exec {i : Instr} (h : exec i s = .next t)
    (hr : t.response = some (.raised c n)) : RefusalGround s i c n := by
  cases i with
  | frameAppend d => exact refusalGround_of_frameAppend h hr
  | hdrWithlen m => exact refusalGround_of_hdrWithlen h hr
  | lrcmNew more circ len => exact refusalGround_of_lrcmNew h hr
  | rawRender b => exact refusalGround_of_rawRender h hr
  | dgRender b | cmdNop b | cmdAprd b | cmdApwr b | cmdAprw b | cmdFprd b | cmdFpwr b | cmdFprw b
  | cmdBrd b | cmdBwr b | cmdBrw b | cmdLrd b | cmdLwr b | cmdLrw b | cmdArmw b | cmdFrmw b =>
    exact refusalGround_of_renderDatagram rfl h hr
  | _ => cases h; cases hr

end

/-- An admitted datagram that makes the exact sum reach 2048 is refused (rule R143). -/
theorem execFrameAppend_of_ge {d : Datagram} {s : State} (hf : d.payload.fits s.params = true)
    (hge : 2048 ≤ dgLen s.params d + s.fh.length.toNat) :
    execFrameAppend d s = raise .outOfRange (dgLen s.params d + s.fh.length.toNat) s := by
  rw [execFrameAppend, withPayload_fits _ hf, appendFitting, headerWithLength_of_ge hge]

/-- Settles O11: of the grounds of a refusal two have the status `OutOfRange`, and each of them
leads to it. -/
theorem outOfRangeExactly : Obligations.OutOfRangeExactly := by
  refine fun i s t n h => ⟨fun hr => ?_, ?_⟩
  · cases refusalGround_of_exec h hr with
    | headerLength hn => exact .inl ⟨_, rfl, hn, rfl⟩
    | frameLength hf hsum => exact .inr ⟨_, rfl, hf, hsum, rfl⟩
  · rintro (⟨m, rfl, hm, rfl⟩ | ⟨d, rfl, hf, hge, rfl⟩)
    · obtain rfl := Host.Outcome.next.inj ((execHdrWithlen_of_ge s hm).symm.trans h)
      rfl
    · obtain rfl := Host.Outcome.next.inj ((execFrameAppend_of_ge hf hge).symm.trans h)
      rfl

end Sys2Proof.Proofs
end

section
/-! The LRCM (spec/42_lrcm.md): what `LRCM_FROM16` reads of a word and the word that
`LRCM_RENDER16` packs. -/

namespace Sys2Proof.Proofs
open Sys2Proof.Machine

/-- A field extracted from a word, as a word of the field's width, is its bits (rule R102). -/
theorem ofNat_getField {n : Nat} (f : Field) (v : BitVec n) :
    BitVec.ofNat f.width (getField f v) = v.extractLsb' f.lo f.width := by
  rw [← toNat_extractLsb'_field, BitVec.ofNat_toNat, BitVec.setWidth_eq]

/-- The machine's extraction of the four fields and the decoder's are the same. -/
theorem lrcmOfU16_eq_wordLrcm (v : U16) : lrcmOfU16 v = Decode.wordLrcm v := by
  rw [lrcmOfU16, Decode.wordLrcm, Lrcm.mk.injEq]
  exact ⟨n2b_getField_flagAt "more" 15 v, n2b_getField_flagAt "circ" 14 v,
    ofNat_getField lrcmReservedField v, ofNat_getField lrcmLenField v⟩

/-- Settles O21: the operation answers `lrcmOfU16`, whose fields are those bits of the word. -/
theorem lrcmFrom16ExtractsTheFields : Obligations.LrcmFrom16ExtractsTheFields := by
  intro v s
  have hexec : exec (.lrcmFrom16 v) s = ret (.lrcm (lrcmOfU16 v)) s := rfl
  rw [hexec, lrcmOfU16_eq_wordLrcm]
  rfl

/-- Settles O22: the packed word is the four fields at their places (`lrcmU16_eq`). -/
theorem lrcmRender16PacksTheFields : Obligations.LrcmRender16PacksTheFields := by
  intro l s
  rw [BitVec.or_assoc, BitVec.or_assoc]
  have hexec : exec (.lrcmRender16 l) s = ret (.word (lrcmU16 l)) s := rfl
  rw [hexec, lrcmU16_eq]
  rfl

end Sys2Proof.Proofs
end

section
/-! The datagram serializer (spec/43_datagram.md): the rendered bytes one by one, and what of a
datagram rendering and appending depend on. -/

namespace Sys2Proof.Proofs
open Sys2Proof.Machine Sys2Proof.Certificates

/-- The four address bytes, upper half first (rule R44). -/
theorem addressBytes_eq (a : U32) : addressBytes a =
    [a.extractLsb' 16 8, a.extractLsb' 24 8, a.extractLsb' 0 8, a.extractLsb' 8 8] := by
  conv_lhs => rw [← Decode.bytes_of_u32 a]
  exact Decode.addressBytes_sideBySide ..

/-- The LRCM's word is two bytes side by side; the length field crosses from one to the other. -/
theorem lrcmU16_eq_bytes (l : Lrcm) : lrcmU16 l =
    (BitVec.ofBool l.more ++ BitVec.ofBool l.circ ++ l.reserved ++ l.len.extractLsb' 8 3 : U8) ++
      l.len.extractLsb' 0 8 := by
  rw [lrcmU16_eq_append]
  apply BitVec.eq_of_getLsbD_eq
  intro j hj
  iterate 7 rw [getLsbD_sideBySide]
  interval_cases j <;> simp

/-- The two LRCM bytes on the wire (rule R120). -/
theorem lrcmWire_eq (l : Lrcm) : lrcmWire l =
    [l.len.extractLsb' 0 8,
      BitVec.ofBool l.more ++ BitVec.ofBool l.circ ++ l.reserved ++ l.len.extractLsb' 8 3] := by
  rw [lrcmWire, lrcmU16_eq_bytes, Decode.le16_sideBySide]

/-- The rendered datagram byte by byte (rule R131). -/
theorem dgBytes_eq (p : Params) (d : Datagram) :
    dgBytes p d = d.command :: wireAfterCommand p (Decode.bodyOf d) := by
  rw [dgBytes, addressBytes_eq, lrcmWire_eq]
  rfl

/-- A datagram whose payload is admitted is rendered (rule R132). -/
theorem renderDatagram_of_fits {d : Datagram} {s : State} (hf : d.payload.fits s.params = true) :
    renderDatagram d s = ret (.bytes (dgBytes s.params d)) s := by
  rw [renderDatagram, withPayload_fits _ hf]

/-- Settles O24: an admitted datagram answers its bytes (`renderDatagram_of_fits`), and these are
the listed ones (`dgBytes_eq`). -/
theorem datagramRenderByteByByte : Obligations.DatagramRenderByteByByte := by
  intro command b s hf
  have hexec : exec (.dgRender (datagramOf command b)) s =
      ret (.bytes (dgBytes s.params (datagramOf command b))) s := renderDatagram_of_fits hf
  rw [hexec, dgBytes_eq]
  rfl

/-- The refusal of a payload that is too long depends on nothing of the operation but the payload
(rule R184). -/
theorem withPayload_of_not_fits {pl : Payload} {s : State} (hf : pl.fits s.params = false) :
    ∃ n, ∀ k, withPayload pl s k = raise .payloadTooLong n s := by
  cases h : payloadTooLong s.params pl with
  | none => simp [(payloadTooLong_isNone _ _).1 h] at hf
  | some n => exact ⟨n, fun k => by rw [withPayload, h]⟩

/-- Admitted datagrams of the same rendered length are appended alike (rule R143). -/
theorem appendFitting_alike {d d' : Datagram} {s : State}
    (hlen : dgLen s.params d' = dgLen s.params d) :
    ∃ t t', appendFitting d s = .next t ∧ appendFitting d' s = .next t' ∧
      t.response = t'.response ∧ t.fh = t'.fh ∧ t.dgs.length = t'.dgs.length := by
  rw [appendFitting, appendFitting, hlen]
  cases headerWithLength (dgLen s.params d + s.fh.length.toNat) with
  | none => exact ⟨_, _, rfl, rfl, rfl, rfl, rfl⟩
  | some h => exact ⟨_, _, rfl, rfl, rfl, rfl, by simp⟩

section
variable {d d' : Datagram} (hp : d'.payload = d.payload) (s : State)
include hp

/-- The rendered length depends on the payload alone (rule R133). -/
theorem dgLen_eq_of_payload_eq (p : Params) : dgLen p d' = dgLen p d := by
  rw [dgLen_eq, dgLen_eq, hp]

/-- Datagrams with the same payload are rendered with the same status. -/
theorem renderDatagram_alike :
    ∃ t t', renderDatagram d s = .next t ∧ renderDatagram d' s = .next t' ∧
      t.response.map Response.code = t'.response.map Response.code := by
  cases hf : d.payload.fits s.params with
  | false =>
    obtain ⟨n, hn⟩ := withPayload_of_not_fits hf
    rw [renderDatagram, renderDatagram, hp, hn, hn]
    exact ⟨_, _, rfl, rfl, rfl⟩
  | true =>
    rw [renderDatagram_of_fits hf, renderDatagram_of_fits (hp ▸ hf)]
    exact ⟨_, _, rfl, rfl, rfl⟩

/-- Datagrams with the same payload are appended with the same response and the same effect on the
accumulator. -/
theorem execFrameAppend_alike :
    ∃ t t', execFrameAppend d s = .next t ∧ execFrameAppend d' s = .next t' ∧
      t.response = t'.response ∧ t.fh = t'.fh ∧ t.dgs.length = t'.dgs.length := by
  rw [execFrameAppend, execFrameAppend, hp]
  cases hf : d.payload.fits s.params with
  | false =>
    obtain ⟨n, hn⟩ := withPayload_of_not_fits hf
    rw [hn, hn]
    exact ⟨_, _, rfl, rfl, rfl, rfl, rfl⟩
  | true =>
    rw [withPayload_fits _ hf, withPayload_fits _ hf]
    exact appendFitting_alike (dgLen_eq_of_payload_eq hp s.params)

end

/-- Settles O26: another LRCM leaves the payload, and rendered length, status and accumulator see
no more of a datagram than its payload. -/
theorem lrcmLengthIsNotCompared : Obligations.LrcmLengthIsNotCompared :=
  fun d l s =>
    have hp : { d with lrcm := l }.payload = d.payload := rfl
    ⟨dgLen_eq_of_payload_eq hp s.params, renderDatagram_alike hp s, execFrameAppend_alike hp s⟩

end Sys2Proof.Proofs
end

section
/-! The frame (spec/44_frame.md): an append below the length limit, and the rendered frame byte by
byte. -/

namespace Sys2Proof.Proofs
open Sys2Proof.Machine Sys2Proof.Certificates

/-- An admitted datagram with which the exact sum `l` stays below 2048 is stored, and the header
takes that length (rule R143). -/
theorem execFrameAppend_of_lt {d : Datagram} {s : State} {l : U11}
    (hf : d.payload.fits s.params = true) (hl : dgLen s.params d + s.fh.length.toNat = l.toNat) :
    execFrameAppend d s = ret .nothing
      (s.setFrame { type := 1, reserved := 0, length := l } (s.dgs ++ [d])) := by
  rw [execFrameAppend, withPayload_fits _ hf, appendFitting, hl, headerWithLength_of_lt l.isLt,
    BitVec.ofNat_toNat, BitVec.setWidth_eq]

/-- Settles O29, by the two sides of the limit (`execFrameAppend_of_lt`, `execFrameAppend_of_ge`);
a length of eleven bits is below it. -/
theorem frameAppendStoresOrRefuses : Obligations.FrameAppendStoresOrRefuses := by
  intro d s hf
  rw [← dgLen_eq]
  exact ⟨fun l hl => execFrameAppend_of_lt hf hl, fun hge => execFrameAppend_of_ge hf hge⟩

/-- The header's word is two bytes side by side; the length field crosses from one to the other. -/
theorem hdrU16_eq_bytes (h : Header) : hdrU16 h =
    (h.type ++ h.reserved ++ h.length.extractLsb' 8 3 : U8) ++ h.length.extractLsb' 0 8 := by
  rw [hdrU16_eq_append]
  apply BitVec.eq_of_getLsbD_eq
  intro j hj
  iterate 5 rw [getLsbD_sideBySide]
  interval_cases j <;> simp

/-- The two header bytes on the wire (rule R110). -/
theorem hdrWire_eq (h : Header) : hdrWire h =
    [h.length.extractLsb' 0 8, h.type ++ h.reserved ++ h.length.extractLsb' 8 3] := by
  rw [hdrWire, hdrU16_eq_bytes, Decode.le16_sideBySide]

/-- The rendered frame byte by byte: the header's two bytes, then the stored datagrams in insertion
order (rule R145). -/
theorem frameBytes_eq (s : State) : frameBytes s =
    s.fh.length.extractLsb' 0 8 :: (s.fh.type ++ s.fh.reserved ++ s.fh.length.extractLsb' 8 3) ::
      s.dgs.flatMap fun d => d.command :: wireAfterCommand s.params (Decode.bodyOf d) := by
  have hdgs : dgBytes s.params =
      fun d => d.command :: wireAfterCommand s.params (Decode.bodyOf d) :=
    funext (dgBytes_eq s.params)
  rw [frameBytes, hdrWire_eq, ← List.flatMap_def, hdgs]
  rfl

/-- Settles O30: the operation answers `frameBytes`, which are the listed bytes (`frameBytes_eq`),
and writes nothing but the response. -/
theorem frameRenderConcatenatesInOrder : Obligations.FrameRenderConcatenatesInOrder := by
  intro s
  have hexec : exec .frameRender s = ret (.bytes (frameBytes s)) s := rfl
  rw [hexec, frameBytes_eq]
  rfl

/-- Settles O28: the header that the operation writes is `State.freshHeader`. -/
theorem frameNewEmptiesTheFrame : Obligations.FrameNewEmptiesTheFrame :=
  fun s => ret_eq .nothing (s.setFrame State.freshHeader [])

end Sys2Proof.Proofs
end

section
/-! The SyncManager (spec/45_syncmanager.md): the eight rendered bytes. -/

namespace Sys2Proof.Proofs
open Sys2Proof.Machine

/-- The rendered SyncManager byte by byte (rule R155). -/
theorem smBytes_eq (p : Params) (m : SyncManager) : smBytes p m =
    [m.start.extractLsb' 0 8, m.start.extractLsb' 8 8, m.length.extractLsb' 0 8,
      m.length.extractLsb' 8 8, (smcsU16 p.smcsLayout m.cs).extractLsb' 0 8,
      (smcsU16 p.smcsLayout m.cs).extractLsb' 8 8, (smenU16 p.smenLayout m.en).extractLsb' 0 8,
      (smenU16 p.smenLayout m.en).extractLsb' 8 8] := rfl

/-- Settles O43: the two encoders answer `smcsU16` and `smenU16` under the state's layouts, and the
rendered bytes hold these same words (`smBytes_eq`). -/
theorem syncManagerRenderEightBytes : Obligations.SyncManagerRenderEightBytes := by
  intro m s
  have hexec : exec (.smRender m) s = ret (.bytes (smBytes s.params m)) s := rfl
  refine ⟨smcsU16 s.params.smcsLayout m.cs, smenU16 s.params.smenLayout m.en,
    ret_eq (.word _) s, ret_eq (.word _) s, ?_⟩
  rw [hexec, smBytes_eq, ret_eq]

end Sys2Proof.Proofs
end

section
/-! The raw payload (spec/47_payload.md): a byte buffer renders to itself. -/

namespace Sys2Proof.Proofs
open Sys2Proof.Machine

/-- An admitted buffer is answered as it was given (rule R172). -/
theorem execRawRender_of_fits {b : Bytes} {s : State}
    (hf : (Payload.raw b).fits s.params = true) :
    execRawRender b s = ret (.bytes b) s := by
  rw [execRawRender, withPayload_fits _ hf]

/-- Settles O46: the payload check lets an admitted buffer pass (`execRawRender_of_fits`), and the
answer writes nothing but the response. -/
theorem rawRenderIsTheIdentity : Obligations.RawRenderIsTheIdentity := by
  intro b s hf
  have hexec : exec (.rawRender b) s = execRawRender b s := rfl
  rw [hexec, execRawRender_of_fits hf, ret_eq]

end Sys2Proof.Proofs
end

section
/-! Refused requests (spec/60_exceptions.md): what a refusal leaves behind. -/

namespace Sys2Proof.Proofs
open Sys2Proof.Machine

/-- A step that takes a request either performs the operation that the request presents or refuses
its operation-select code (rules R35 and R81). -/
theorem step_next_cases {s t : State} {r : Request} {rest : List Request}
    (hreq : s.requests = r :: rest) (h : step s = .next t) :
    (∃ i, Decode.decodeRequest r = .ok i ∧ exec i (s.setRequests rest) = .next t) ∨
    (∃ code, Decode.decodeRequest r = .error (.illegalOp code) ∧
      raise .illegalOp code.toNat (s.setRequests rest) = .next t) := by
  simp only [step, hreq] at h
  split at h
  next i hi => exact .inl ⟨i, hi, h⟩
  next code hcode => exact .inr ⟨code, hcode, h⟩
  next => cases h

section
variable {s t : State} {c : Cause} {n : Nat}

/-- A refused operation writes nothing but the response (rule R186): the two operations that write
the frame do so with status `OK`. -/
theorem eq_respond_of_exec_raised {i : Instr} (h : exec i s = .next t)
    (hr : t.response = some (.raised c n)) : t = s.respond (.raised c n) := by
  rcases exec_cases i s with ⟨-, q, he⟩ | ⟨-, he⟩ | ⟨d, -, -, -, he⟩ <;>
    obtain rfl := Host.Outcome.next.inj (he.symm.trans h) <;> cases hr
  rfl

/-- A refused request is taken away and leaves nothing but the response (rule R186). -/
theorem eq_respond_of_step_raised {r : Request} {rest : List Request}
    (hreq : s.requests = r :: rest) (h : step s = .next t)
    (hr : t.response = some (.raised c n)) :
    t = (s.setRequests rest).respond (.raised c n) := by
  rcases step_next_cases hreq h with ⟨i, -, he⟩ | ⟨code, -, he⟩
  · exact eq_respond_of_exec_raised he hr
  · rw [raise_next_iff] at he
    subst he
    cases hr
    rfl

end

/-- Settles O10: the next state differs from the one without the request in the response alone
(`eq_respond_of_step_raised`), which no operation reads (`exec_respond`). -/
theorem refusalLeavesNoTrace : Obligations.RefusalLeavesNoTrace := by
  intro s t r rest c n hreq h hr
  obtain rfl := eq_respond_of_step_raised hreq h hr
  exact ⟨rfl, rfl, rfl, rfl, fun j => exec_respond j (s.setRequests rest) (.raised c n)⟩

end Sys2Proof.Proofs
end

section
/-! The state invariant (rule R21): what is left of it to show once the header's length is the sum
of the stored lengths, and that reset establishes it and every step keeps it. -/

namespace Sys2Proof.Proofs
open Sys2Proof.Machine

/-- Every stored datagram takes twelve bytes of the frame at least (rule R133). -/
theorem twelve_mul_length_le_storedLength (s : State) : 12 * s.dgs.length ≤ storedLength s := by
  have hle : ∀ n ∈ s.dgs.map (dgLen s.params), 12 ≤ n := by
    intro n hn
    obtain ⟨d, -, rfl⟩ := List.mem_map.1 hn
    rw [dgLen_eq]
    omega
  have hsum := List.card_nsmul_le_sum _ 12 hle
  rw [List.length_map, smul_eq_mul, Nat.mul_comm] at hsum
  exact hsum

/-- The two bounds of the invariant follow from its other three lines: eleven bits hold at most
2047, and 171 datagrams would take more than that. -/
theorem frameInv_iff (s : State) : FrameInv s ↔
    s.fh.type = 1 ∧ s.fh.reserved = 0 ∧ s.fh.length.toNat = storedLength s := by
  refine ⟨fun ⟨htype, hreserved, hlength, _⟩ => ⟨htype, hreserved, hlength⟩,
    fun ⟨htype, hreserved, hlength⟩ => ?_⟩
  have hlt : s.fh.length.toNat < 2048 := s.fh.length.isLt
  have h12 := twelve_mul_length_le_storedLength s
  have hcap : s.dgs.length ≤ Config.dgCap := by
    unfold Config.dgCap
    omega
  exact ⟨htype, hreserved, hlength, by omega, hcap⟩

/-- An empty frame with the header of a new frame is sound. -/
theorem frameInv_of_empty {s : State} (hfh : s.fh = State.freshHeader) (hdgs : s.dgs = []) :
    FrameInv s := by
  rw [frameInv_iff, storedLength, hfh, hdgs]
  exact ⟨rfl, rfl, rfl⟩

/-- An accepted append adds the datagram's length to the header and the datagram to the store. -/
theorem frameInv_append {s : State} {d : Datagram} (hs : FrameInv s)
    (hlt : dgLen s.params d + s.fh.length.toNat < 2048) (r : Response) :
    FrameInv ((s.setFrame
      { type := 1, reserved := 0,
        length := BitVec.ofNat 11 (dgLen s.params d + s.fh.length.toNat) }
      (s.dgs ++ [d])).respond r) := by
  obtain ⟨-, -, hlength, -⟩ := hs
  refine (frameInv_iff _).2 ⟨rfl, rfl, ?_⟩
  calc (BitVec.ofNat 11 (dgLen s.params d + s.fh.length.toNat)).toNat
    _ = dgLen s.params d + s.fh.length.toNat := by rw [BitVec.toNat_ofNat, Nat.mod_eq_of_lt hlt]
    _ = storedLength s + dgLen s.params d := by rw [hlength, Nat.add_comm]
    _ = ((s.dgs ++ [d]).map (dgLen s.params)).sum := by simp [storedLength]

/-- Every operation keeps the invariant, whatever its status. -/
theorem frameInv_of_exec {i : Instr} {s t : State} (hs : FrameInv s) (h : exec i s = .next t) :
    FrameInv t := by
  rcases exec_cases i s with ⟨-, r, he⟩ | ⟨-, he⟩ | ⟨d, -, -, hlt, he⟩ <;>
    obtain rfl := Host.Outcome.next.inj (he.symm.trans h)
  · exact hs
  · exact frameInv_of_empty rfl rfl
  · exact frameInv_append hs hlt _

/-- Every step keeps the invariant: it idles, performs an operation or refuses a code. -/
theorem frameInv_of_step {s t : State} (hs : FrameInv s) (h : step s = .next t) : FrameInv t := by
  cases hreq : s.requests with
  | nil =>
    rw [step, hreq] at h
    obtain rfl := Host.Outcome.next.inj h
    exact hs
  | cons r rest =>
    rcases step_next_cases hreq h with ⟨i, -, he⟩ | ⟨code, -, he⟩
    · exact frameInv_of_exec (s := s.setRequests rest) hs he
    · obtain rfl := (raise_next_iff ..).1 he
      exact hs

/-- Settles O3: the frame at reset is empty, and every step keeps the invariant
(`frameInv_of_step`). -/
theorem everyStepKeepsTheFrameInvariant : Obligations.EveryStepKeepsTheFrameInvariant :=
  ⟨frameInv_of_empty rfl rfl, fun _ _ => frameInv_of_step⟩

/-- Settles O2: in both states the frame is empty. -/
theorem resetMeetsTheFrameInvariant : Obligations.ResetMeetsTheFrameInvariant :=
  ⟨frameInv_of_empty rfl rfl, fun _ => frameInv_of_empty rfl rfl⟩

/-- The word of a new frame's header (rule R200). -/
theorem hdrU16_freshHeader : hdrU16 State.freshHeader = 0x1000#16 := by decide

/-- A step with no request outstanding is idle. -/
theorem step_of_no_request {s : State} (h : s.requests = []) : step s = .next s := by
  rw [step, h]

/-- Settles O1: reset and `FRAME_NEW` write the same header and the same empty store. -/
theorem resetLeavesAnEmptyFrameAndIdles : Obligations.ResetLeavesAnEmptyFrameAndIdles :=
  ⟨hdrU16_freshHeader, rfl, step_of_no_request rfl, fun _ => step_of_no_request,
    fun _ => ⟨_, rfl, rfl, rfl, rfl, hdrU16_freshHeader⟩⟩

end Sys2Proof.Proofs
end

section
/-! The request port (log 1 and 2): decoding gives back what was encoded, and every request that
decodes is the encoding of what it decodes to. -/

namespace Sys2Proof.Proofs
open Sys2Proof.Machine Sys2Proof.Decode

/-- A command row's request is its code and its body (rules R70 and R74). -/
theorem encode_commandInstr (c : Command) (b : DatagramBody) :
    encode (commandInstr c b) = ⟨.cmd, commandCode c :: putBody b⟩ := by cases c <;> rfl

theorem commandOf_commandCode (c : Command) : commandOf (commandCode c) = some c := by
  cases c <;> rfl

/-- A command row's code and body are read back as the row. -/
theorem decode_commandInstr (c : Command) (b : DatagramBody) (rest : Bytes) :
    decode .cmd (commandCode c :: putBody b ++ rest) = .ok (commandInstr c b, rest) := by
  have hdecode : decode .cmd (commandCode c :: putBody b ++ rest) =
      decodeCmd (commandCode c) (putBody b ++ rest) := rfl
  rw [hdecode, decodeCmd, commandOf_commandCode]
  simp

/-- The bytes of an instruction's request are read back as the instruction, and the bytes after
them are left. -/
theorem decode_encode (i : Instr) (rest : Bytes) :
    decode (encode i).space ((encode i).bytes ++ rest) = .ok (i, rest) := by
  cases i with
  | cmdNop b => exact decode_commandInstr .nop b rest
  | cmdAprd b => exact decode_commandInstr .aprd b rest
  | cmdApwr b => exact decode_commandInstr .apwr b rest
  | cmdAprw b => exact decode_commandInstr .aprw b rest
  | cmdFprd b => exact decode_commandInstr .fprd b rest
  | cmdFpwr b => exact decode_commandInstr .fpwr b rest
  | cmdFprw b => exact decode_commandInstr .fprw b rest
  | cmdBrd b => exact decode_commandInstr .brd b rest
  | cmdBwr b => exact decode_commandInstr .bwr b rest
  | cmdBrw b => exact decode_commandInstr .brw b rest
  | cmdLrd b => exact decode_commandInstr .lrd b rest
  | cmdLwr b => exact decode_commandInstr .lwr b rest
  | cmdLrw b => exact decode_commandInstr .lrw b rest
  | cmdArmw b => exact decode_commandInstr .armw b rest
  | cmdFrmw b => exact decode_commandInstr .frmw b rest
  | regHeader _ | regLrcm _ | regSmcs _ | regSmen _ => simp [encode]
  | regFmmuCaps _ _ | regFmmuActv _ => simp [encode, decode]
  | _ => simp [encode, decode, decodeOpsel]

/-- A request is an instruction's when its bytes are the instruction's and nothing more. -/
theorem decodeRequest_eq_ok_iff (r : Request) (i : Instr) :
    decodeRequest r = .ok i ↔ decode r.space r.bytes = .ok (i, []) := by
  rw [decodeRequest]
  rcases decode r.space r.bytes with e | ⟨j, _ | ⟨b, bs⟩⟩ <;> simp

/-- Settles O49, by the reader of each operand undoing its writer (`decode_encode`). -/
theorem decodeUndoesEncode : Obligations.DecodeUndoesEncode := by
  refine fun i rest => ⟨decode_encode i rest, ?_⟩
  rw [decodeRequest_eq_ok_iff]
  simpa using decode_encode i []

/-- A request of a fixed front and one operand: when the operand's reader accepts nothing but what
its writer writes, the bytes read are the instruction's. -/
theorem encode_of_operand {α : Type} {take : Bytes → Taken α} {put : α → Bytes}
    (hinv : ∀ {bs r : Bytes} {a : α}, take bs = .ok (a, r) → bs = put a ++ r)
    {f : α → Instr} {space : Space} {front : Bytes}
    {bs r : Bytes} {i : Instr} (h : andThen (take bs) (fun a bs => .ok (f a, bs)) = .ok (i, r))
    (hencode : ∀ a, encode (f a) = ⟨space, front ++ put a⟩) :
    (encode i).space = space ∧ front ++ bs = (encode i).bytes ++ r := by
  obtain ⟨a, bs', ha, hi⟩ := andThen_eq_ok.1 h
  cases hi
  rw [hencode, hinv ha, List.append_assoc]
  exact ⟨rfl, rfl⟩

/-- The three operands of `LRCM_NEW`, read and written. -/
theorem encode_of_lrcmNew {bs r : Bytes} {i : Instr}
    (h : (andThen (takeBool bs) fun more bs => andThen (takeBool bs) fun circ bs =>
      andThen (takeU16 bs) fun len bs => .ok (.lrcmNew more circ len, bs)) = .ok (i, r)) :
    (encode i).space = .opsel ∧ 0x20 :: bs = (encode i).bytes ++ r := by
  simp only [andThen_eq_ok] at h
  obtain ⟨more, _, hmore, circ, _, hcirc, len, _, hlen, hi⟩ := h
  cases hi
  rw [takeBool_inv hmore, takeBool_inv hcirc, takeU16_inv hlen]
  simp [encode]

/-- The bytes from which an operation is read are its code and its operands as `encode` writes
them (rule R80). -/
theorem encode_of_decodeOpsel {code : U8} {bs r : Bytes} {i : Instr}
    (h : decodeOpsel code bs = .ok (i, r)) :
    (encode i).space = .opsel ∧ code :: bs = (encode i).bytes ++ r := by
  have hcode : code = BitVec.ofNat 8 code.toNat := (BitVec.ofNat_toNat 8 code).symm
  unfold decodeOpsel at h
  generalize code.toNat = n at h hcode
  subst hcode
  split at h
  case h_1 | h_3 | h_4 =>
    cases h
    exact ⟨rfl, rfl⟩
  case h_2 | h_12 => exact encode_of_operand (front := [_]) takeDatagram_inv h fun _ => rfl
  case h_5 | h_7 | h_8 | h_10 | h_14 | h_16 =>
    exact encode_of_operand (front := [_]) takeU16_inv h fun _ => rfl
  case h_6 => exact encode_of_operand (front := [_]) takeHeader_inv h fun _ => rfl
  case h_9 => exact encode_of_lrcmNew h
  case h_11 => exact encode_of_operand (front := [_]) takeLrcm_inv h fun _ => rfl
  case h_13 => exact encode_of_operand (front := [_]) takeSmcs_inv h fun _ => rfl
  case h_15 => exact encode_of_operand (front := [_]) takeSmen_inv h fun _ => rfl
  case h_17 => exact encode_of_operand (front := [_]) takeSyncManager_inv h fun _ => rfl
  case h_18 => exact encode_of_operand (front := [_]) takeFmmu_inv h fun _ => rfl
  case h_19 => exact encode_of_operand (front := [_]) takeBytes_inv h fun _ => rfl
  case h_20 => cases h

/-- A code that is read as a command is the command's code. -/
theorem commandCode_of_commandOf {code : U8} {c : Command} (h : commandOf code = some c) :
    code = commandCode c := by
  have hcode : code = BitVec.ofNat 8 code.toNat := (BitVec.ofNat_toNat 8 code).symm
  unfold commandOf at h
  generalize code.toNat = n at h hcode
  split at h <;> cases h <;> exact hcode

theorem encode_of_decodeCmd {code : U8} {bs r : Bytes} {i : Instr}
    (h : decodeCmd code bs = .ok (i, r)) :
    (encode i).space = .cmd ∧ code :: bs = (encode i).bytes ++ r := by
  unfold decodeCmd at h
  split at h
  next c hc =>
    rw [commandCode_of_commandOf hc]
    exact encode_of_operand (front := [_]) takeBody_inv h (encode_commandInstr c)
  next => cases h

theorem encode_of_decodeHeaderReg {bs r : Bytes} {i : Instr}
    (h : decodeHeaderReg bs = .ok (i, r)) :
    (encode i).space = .header ∧ bs = (encode i).bytes ++ r := by
  obtain ⟨v, bs', hv, hi⟩ := andThen_eq_ok.1 h
  split at hi
  next hfixed =>
    cases hi
    rw [takeU16_inv hv, encode, headerReg_of_fixed v hfixed]
    exact ⟨rfl, rfl⟩
  next => cases hi

/-- The bytes from which an instruction is read are the instruction's, and those after them are
left. -/
theorem encode_of_decode {space : Space} {bs r : Bytes} {i : Instr}
    (h : decode space bs = .ok (i, r)) :
    (encode i).space = space ∧ bs = (encode i).bytes ++ r := by
  unfold decode at h
  split at h
  case h_1 => cases h
  case h_2 => exact encode_of_decodeOpsel h
  case h_3 => exact encode_of_decodeCmd h
  case h_4 => exact encode_of_decodeHeaderReg h
  case h_5 => exact encode_of_operand (front := []) takeLrcm_inv h fun _ => rfl
  case h_6 => exact encode_of_operand (front := []) takeSmcs_inv h fun _ => rfl
  case h_7 => exact encode_of_operand (front := []) takeSmen_inv h fun _ => rfl
  case h_8 =>
    obtain ⟨wr, bs', hwr, hi⟩ := andThen_eq_ok.1 h
    cases hi
    rw [takeCaps_inv hwr]
    exact ⟨rfl, rfl⟩
  case h_9 =>
    obtain ⟨active, bs', hactive, hi⟩ := andThen_eq_ok.1 h
    cases hi
    rw [takeActv_inv hactive]
    exact ⟨rfl, rfl⟩

/-- Settles O50: the request's encoding is the instruction's and its bytes are the instruction's
and nothing more (`encode_of_decode`). -/
theorem encodeUndoesDecode : Obligations.EncodeUndoesDecode := by
  intro r i h
  rw [decodeRequest_eq_ok_iff] at h
  obtain ⟨hspace, hbytes⟩ := encode_of_decode h
  rw [List.append_nil] at hbytes
  calc encode i
    _ = ⟨(encode i).space, (encode i).bytes⟩ := rfl
    _ = r := by rw [hspace, ← hbytes]

/-- Settles O51: each word is evaluated. -/
theorem sampleWordsDecode : Obligations.SampleWordsDecode := by
  unfold Obligations.SampleWordsDecode
  decide

end Sys2Proof.Proofs
end

section
/-! The step (spec/10_state.md section 4): what the block does with the host's next request, and
that every operation is answered. -/

namespace Sys2Proof.Proofs
open Sys2Proof.Machine

section
variable {s : State} {r : Request} {rest : List Request}

theorem step_of_decodes {i : Instr} (hreq : s.requests = r :: rest)
    (h : Decode.decodeRequest r = .ok i) : step s = exec i (s.setRequests rest) := by
  simp only [step, hreq, h]

theorem step_of_illegalOp {code : U8} (hreq : s.requests = r :: rest)
    (h : Decode.decodeRequest r = .error (.illegalOp code)) :
    step s = raise .illegalOp code.toNat (s.setRequests rest) := by
  simp only [step, hreq, h]

theorem step_of_malformed {e : DecodeError} (hreq : s.requests = r :: rest)
    (h : Decode.decodeRequest r = .error e) (he : ∀ code, e ≠ .illegalOp code) :
    step s = .refused (.malformedRequest e) := by
  simp only [step, hreq, h]

end

/-- Settles O4, by `step_of_decodes`. -/
theorem stepRunsTheDecodedRequest : Obligations.StepRunsTheDecodedRequest :=
  fun _ _ _ _ => step_of_decodes

/-- A word of the table reads as an instruction when its request does. -/
theorem decodeRequest_of_decodeTableWord {nbits w : Nat} {i : Instr}
    (h : decodeTableWord nbits w = some i) :
    Decode.decodeRequest (Decode.requestOfWord nbits w) = .ok i := by
  unfold decodeTableWord at h
  split at h
  next j hj =>
    cases h
    exact hj
  next => cases h

/-- Settles O5: the word stands before the outstanding requests, and the step that takes it away
restores them. -/
theorem stepRunsTheTableWord : Obligations.StepRunsTheTableWord := by
  intro s nbits w i h
  have hreq : (s.withFetchWord nbits w).requests = Decode.requestOfWord nbits w :: s.requests := rfl
  rw [step_of_decodes hreq (decodeRequest_of_decodeTableWord h)]
  rfl

/-- A code outside the nineteen names no operation, whatever bytes follow (rules R81 and R187). -/
theorem decodeOpsel_of_unknown {code : U8} (bs : Bytes)
    (h : code.toNat ∉ Decode.operationCodes) :
    Decode.decodeOpsel code bs = .error (.illegalOp code) := by
  unfold Decode.decodeOpsel
  split
  case h_20 => rfl
  all_goals exact absurd (by simp [Decode.operationCodes, *]) h

/-- Settles O6: such a code is refused by the decoder (`decodeOpsel_of_unknown`), and the step
answers with the refusal. -/
theorem unknownOperationCodeIsIllegalOp : Obligations.UnknownOperationCodeIsIllegalOp := by
  intro s code operands rest hcode hreq
  have hdecode : Decode.decodeRequest ⟨.opsel, code :: operands⟩ = .error (.illegalOp code) := by
    rw [Decode.decodeRequest, Decode.decode, decodeOpsel_of_unknown operands hcode]
  rw [step_of_illegalOp hreq hdecode]
  rfl

/-- Settles O7, by the three things that an operation can do (`exec_cases`), each of which answers
and writes neither parameters nor requests. -/
theorem everyOperationIsAnswered : Obligations.EveryOperationIsAnswered := by
  intro i s
  rcases exec_cases i s with ⟨-, r, he⟩ | ⟨-, he⟩ | ⟨d, -, -, -, he⟩ <;>
    exact ⟨_, _, he, rfl, rfl, rfl⟩

/-- Settles O8, by what the decoder says of the next request: an instruction is performed
(`everyOperationIsAnswered`), an unknown code is refused, and only bytes that it rejects otherwise
stop the step. -/
theorem stepStopsOnlyOnAMalformedRequest : Obligations.StepStopsOnlyOnAMalformedRequest := by
  intro s
  cases hreq : s.requests with
  | nil => exact .inl ⟨s, step_of_no_request hreq⟩
  | cons r rest =>
    cases hdecode : Decode.decodeRequest r with
    | ok i =>
      obtain ⟨t, -, ht, -⟩ := everyOperationIsAnswered i (s.setRequests rest)
      exact .inl ⟨t, (step_of_decodes hreq hdecode).trans ht⟩
    | error e =>
      by_cases he : ∃ code, e = .illegalOp code
      · obtain ⟨code, rfl⟩ := he
        exact .inl ⟨_, step_of_illegalOp hreq hdecode⟩
      · have he : ∀ code, e ≠ .illegalOp code := fun code h => he ⟨code, h⟩
        exact .inr ⟨r, rest, e, rfl, hdecode, he, step_of_malformed hreq hdecode he⟩

end Sys2Proof.Proofs
end

section
/-! Refusals (spec/60_exceptions.md): when an operation answers `LenOverwidth` and when
`PayloadTooLong`. The grounds of a refusal are those of `RefusalGround`; here each leads to it. -/

namespace Sys2Proof.Proofs
open Sys2Proof.Machine

/-- Below the limit `LRCM_NEW` answers its record under either policy (rule R121). -/
theorem execLrcmNew_of_lt {len : U16} (more circ : Bool) (s : State) (hlen : len.toNat < 2048) :
    execLrcmNew more circ len s = ret (.lrcm (lrcmMade more circ len)) s := by
  rw [execLrcmNew, if_neg (by omega)]

/-- From the limit on the policy `reject` refuses the length (rule R121). -/
theorem execLrcmNew_of_ge_reject {len : U16} {s : State} (more circ : Bool)
    (hlen : 2048 ≤ len.toNat) (hp : s.params.lrcmOverwidth = .reject) :
    execLrcmNew more circ len s = raise .lenOverwidth len.toNat s := by
  rw [execLrcmNew, if_pos hlen, hp]

/-- From the limit on the policy `mask` keeps the length's low eleven bits (rule R121). -/
theorem execLrcmNew_of_ge_mask {len : U16} {s : State} (more circ : Bool)
    (hlen : 2048 ≤ len.toNat) (hp : s.params.lrcmOverwidth = .mask) :
    execLrcmNew more circ len s = ret (.lrcm (lrcmMade more circ len)) s := by
  rw [execLrcmNew, if_pos hlen, hp]

/-- Settles O12: one ground of a refusal has the status `LenOverwidth`, and it leads to it. -/
theorem lenOverwidthExactly : Obligations.LenOverwidthExactly := by
  refine fun i s t n h => ⟨fun hr => ?_, ?_⟩
  · cases refusalGround_of_exec h hr with
    | lrcmLength hlen hpolicy => exact ⟨_, _, _, rfl, hlen, hpolicy, rfl⟩
  · rintro ⟨more, circ, len, rfl, hlen, hpolicy, rfl⟩
    have hraise := execLrcmNew_of_ge_reject more circ hlen hpolicy
    obtain rfl := Host.Outcome.next.inj (hraise.symm.trans h)
    rfl

/-- A raw payload over a finite `PAYLOAD_MAX` is refused, whatever the operation would go on to do
(rule R184). -/
theorem withPayload_of_too_long {s : State} {b : Bytes} {m : Nat}
    (hm : s.params.payloadMax = some m) (hlt : m < b.length) (k : Answer) :
    withPayload (.raw b) s k = raise .payloadTooLong b.length s := by
  have hlong : payloadTooLong s.params (.raw b) = some b.length :=
    (payloadTooLong_isSome _ _ _).2 ⟨b, m, rfl, hm, hlt, rfl⟩
  rw [withPayload, hlong]

/-- Every operation that carries a payload checks it before anything else (rule R187). -/
theorem exec_of_not_wf {i : Instr} {s : State} (h : i.wf s.params = false) :
    ∃ n, exec i s = raise .payloadTooLong n s := by
  cases i with
  | rawRender b =>
    obtain ⟨n, hn⟩ := withPayload_of_not_fits (pl := .raw b) h
    exact ⟨n, hn _⟩
  | frameAppend d | dgRender d | cmdNop d | cmdAprd d | cmdApwr d | cmdAprw d
  | cmdFprd d | cmdFpwr d | cmdFprw d | cmdBrd d | cmdBwr d | cmdBrw d | cmdLrd d | cmdLwr d
  | cmdLrw d | cmdArmw d | cmdFrmw d =>
    obtain ⟨n, hn⟩ := withPayload_of_not_fits h
    exact ⟨n, hn _⟩
  | _ => cases h

/-- Settles O13: the status `PayloadTooLong` has one ground, which leads to it (`exec_of_not_wf`),
no ground has the status `IllegalOp`, and the three operations begin with the payload's check. -/
theorem payloadTooLongExactlyAndFirst : Obligations.PayloadTooLongExactlyAndFirst := by
  refine ⟨fun i s t h => ⟨⟨?_, fun hwf => ?_⟩, fun n hr => ?_⟩, fun s b m d hm hlt hd => ?_⟩
  · rintro ⟨n, hr⟩
    cases refusalGround_of_exec h hr with
    | payloadLength hwf => exact hwf
  · obtain ⟨n, hn⟩ := exec_of_not_wf hwf
    obtain rfl := Host.Outcome.next.inj (hn.symm.trans h)
    exact ⟨n, rfl⟩
  · cases refusalGround_of_exec h hr
  · have hrender := withPayload_of_too_long hm hlt (ret (.bytes (dgBytes s.params d)) s)
    have happend := withPayload_of_too_long hm hlt (appendFitting d s)
    rw [← hd] at hrender happend
    exact ⟨withPayload_of_too_long hm hlt _, hrender, happend⟩

end Sys2Proof.Proofs
end

section
/-! Purity (spec/10_state.md): what of a state an operation's answer depends on. -/

namespace Sys2Proof.Proofs
open Sys2Proof.Machine Sys2Proof.Certificates

section
variable {s s' t : State} (hp : s.params = s'.params)
include hp

/-- The check of a payload depends on the parameters alone (rule R184). -/
theorem withPayload_of_params_eq {pl : Payload} {r : Result}
    (h : withPayload pl s (ret r s) = .next t) :
    withPayload pl s' (ret r s') = .next { s' with response := t.response } := by
  rw [withPayload] at h ⊢
  rw [hp] at h
  generalize payloadTooLong s'.params pl = tooLong at h ⊢
  cases tooLong <;> cases h <;> rfl

theorem renderDatagram_of_params_eq {d : Datagram} (h : renderDatagram d s = .next t) :
    renderDatagram d s' = .next { s' with response := t.response } := by
  rw [renderDatagram, hp] at h
  exact withPayload_of_params_eq hp h

theorem execLrcmNew_of_params_eq {more circ : Bool} {len : U16}
    (h : execLrcmNew more circ len s = .next t) :
    execLrcmNew more circ len s' = .next { s' with response := t.response } := by
  rw [execLrcmNew] at h ⊢
  rw [hp] at h
  generalize s'.params.lrcmOverwidth = policy at h ⊢
  split at h
  next hlen => cases policy <;> cases h <;> rw [if_pos hlen] <;> rfl
  next hlen =>
    cases h
    rw [if_neg hlen]
    rfl

/-- An operation that is no `FRAME_*` gives, in every state with the same parameters, the same
response, and changes nothing else (rule R20). -/
theorem exec_of_params_eq {i : Instr} (hi : readsNoFrame i) (h : exec i s = .next t) :
    exec i s' = .next { s' with response := t.response } := by
  cases i with
  | frameNew | frameAppend _ | frameRender => exact hi.elim
  | hdrWithlen n =>
    simp only [exec, execHdrWithlen] at h ⊢
    generalize headerWithLength n.toNat = made at h ⊢
    cases made <;> cases h <;> rfl
  | lrcmNew more circ len => exact execLrcmNew_of_params_eq hp h
  | rawRender b => exact withPayload_of_params_eq hp h
  | dgRender d | cmdNop b | cmdAprd b | cmdApwr b | cmdAprw b | cmdFprd b | cmdFpwr b | cmdFprw b
  | cmdBrd b | cmdBwr b | cmdBrw b | cmdLrd b | cmdLwr b | cmdLrw b | cmdArmw b | cmdFrmw b =>
    exact renderDatagram_of_params_eq hp h
  | smcsEnc _ | smcsDec _ | smenEnc _ | smenDec _ | smRender _ | regSmcs _ | regSmen _ =>
    cases h
    simp only [exec, execSmcsEnc, execSmcsDec, execSmenEnc, execSmenDec, execSmRender, execRegSmcs,
      execRegSmen, hp]
    rfl
  | _ =>
    cases h
    rfl

end

/-- An operation that is no `FRAME_*` leaves two states with the same parameters with the same
response and everything else as it was. -/
theorem eq_respond_of_params_eq {i : Instr} {s s' t t' : State} (hp : s.params = s'.params)
    (h : exec i s = .next t) (h' : exec i s' = .next t') (hi : readsNoFrame i) :
    t = { s with response := t.response } ∧ t' = { s' with response := t.response } :=
  ⟨Host.Outcome.next.inj (h.symm.trans (exec_of_params_eq rfl hi h)),
    Host.Outcome.next.inj (h'.symm.trans (exec_of_params_eq hp hi h))⟩

/-- An append depends on the parameters, the header and the store alone. -/
theorem execFrameAppend_of_frame_eq {d : Datagram} {s s' t t' : State} (hp : s.params = s'.params)
    (hfh : s.fh = s'.fh) (hdgs : s.dgs = s'.dgs) (h : execFrameAppend d s = .next t)
    (h' : execFrameAppend d s' = .next t') :
    t.response = t'.response ∧ t.fh = t'.fh ∧ t.dgs = t'.dgs := by
  rw [execFrameAppend, withPayload, appendFitting] at h h'
  rw [hp, hfh, hdgs] at h
  generalize payloadTooLong s'.params d.payload = tooLong at h h'
  generalize headerWithLength (dgLen s'.params d + s'.fh.length.toNat) = made at h h'
  cases tooLong with
  | some n =>
    cases h; cases h'
    exact ⟨rfl, hfh, hdgs⟩
  | none =>
    cases made <;> cases h <;> cases h'
    · exact ⟨rfl, hfh, hdgs⟩
    · exact ⟨rfl, rfl, rfl⟩

/-- Settles O14: an operation that is no `FRAME_*` answers by the parameters (`exec_of_params_eq`)
and leaves the frame; of the other three `FRAME_NEW` reads nothing, and `FRAME_RENDER` and
`FRAME_APPEND` read no more than the parameters and the frame. -/
theorem answersDependOnNothingElse : Obligations.AnswersDependOnNothingElse := by
  refine ⟨fun i s s' t t' hi hp h h' => ?_, fun i s s' t t' hp hfh hdgs h h' => ?_⟩
  · obtain ⟨-, ht'⟩ := eq_respond_of_params_eq hp h h' hi
    rw [ht']
  · cases i with
    | frameNew =>
      cases h; cases h'
      exact ⟨rfl, rfl, rfl⟩
    | frameAppend d => exact execFrameAppend_of_frame_eq hp hfh hdgs h h'
    | frameRender =>
      cases h; cases h'
      have hbytes : frameBytes s = frameBytes s' := by rw [frameBytes, frameBytes, hp, hfh, hdgs]
      exact ⟨congrArg (fun b => some (Response.ok (.bytes b))) hbytes, hfh, hdgs⟩
    | _ =>
      obtain ⟨ht, ht'⟩ := eq_respond_of_params_eq hp h h' trivial
      rw [ht, ht']
      exact ⟨rfl, hfh, hdgs⟩

end Sys2Proof.Proofs
end

section
/-! The frame header and the LRCM, decoded (spec/41_frame_header.md, spec/42_lrcm.md): the fields of
a word, and the round trips through the packed word. -/

namespace Sys2Proof.Proofs
open Sys2Proof.Machine

/-- The machine's extraction of the three fields and the decoder's are the same. -/
theorem hdrOfU16_eq_wordHeader (v : U16) : hdrOfU16 v = Decode.wordHeader v := by
  rw [hdrOfU16, Decode.wordHeader, Header.mk.injEq]
  exact ⟨ofNat_getField hdrTypeField v, ofNat_getField hdrReservedField v,
    ofNat_getField hdrLengthField v⟩

theorem execHdrFrom16_eq (v : U16) (s : State) :
    execHdrFrom16 v s = ret (.header (Decode.wordHeader v)) s := by
  rw [execHdrFrom16, hdrOfU16_eq_wordHeader]

theorem execHdrLen_eq (v : U16) (s : State) :
    execHdrLen v s = ret (.length (v.extractLsb' 0 11)) s :=
  congrArg (fun l => ret (.length l) s) (ofNat_getField hdrLengthField v)

/-- Settles O18: both operations answer the word's bits (`execHdrFrom16_eq`, `execHdrLen_eq`). -/
theorem headerFrom16ExtractsTheFields : Obligations.HeaderFrom16ExtractsTheFields :=
  fun v s => ⟨execHdrFrom16_eq v s, execHdrLen_eq v s⟩

/-- Rendering a decoded header word gives the word back: all its bits are assigned (rule R105). -/
theorem hdrU16_wordHeader (v : U16) : hdrU16 (Decode.wordHeader v) = v :=
  (hdrU16_eq_append _).trans (Decode.headerWord_wordHeader v)

/-- The length field of a header's word is its length. -/
theorem extractLsb'_hdrU16 (h : Header) : (hdrU16 h).extractLsb' 0 11 = h.length := by
  rw [hdrU16_eq_append]
  exact congrArg Header.length (Decode.wordHeader_headerWord h)

/-- The word of a header that the block makes is the type tag's bit over the length (rule R62). -/
theorem hdrU16_of_length (l : U11) :
    hdrU16 { type := 1, reserved := 0, length := l } = 0x1000 ||| l.setWidth 16 := by
  rw [hdrU16_eq]
  simp

/-- A word below 2048 is its low eleven bits. -/
theorem setWidth_ofNat_of_lt {n : U16} (hn : n.toNat < 2048) :
    (BitVec.ofNat 11 n.toNat).setWidth 16 = n := by
  apply BitVec.eq_of_toNat_eq
  rw [BitVec.toNat_setWidth, BitVec.toNat_ofNat, Nat.mod_eq_of_lt hn, Nat.mod_eq_of_lt n.isLt]

/-- The type tag's bit is above every bit of a length, so or-ing it in is adding it. -/
theorem tag_or_length (l : U11) : 0x1000 ||| l.setWidth 16 = 0x1000 + l.setWidth 16 := by
  refine (BitVec.add_eq_or_of_and_eq_zero _ _ ?_).symm
  apply BitVec.eq_of_getLsbD_eq
  intro j hj
  rw [BitVec.getLsbD_and, BitVec.getLsbD_setWidth]
  interval_cases j <;> simp

/-- Settles O19: the header of a length packs to the tag over the length, its length field reads
back, and a decoded word renders to itself (`hdrU16_wordHeader`). -/
theorem headerRoundTrips : Obligations.HeaderRoundTrips := by
  refine fun s => ⟨fun len hlen => ?_, fun len hlen => execHdrWithlen_of_ge s hlen, fun v => ?_⟩
  · refine ⟨_, _, _, execHdrWithlen_of_lt s hlen, ret_eq _ s, execHdrLen_eq _ s, ?_, ?_⟩
    · rw [extractLsb'_hdrU16, BitVec.toNat_ofNat, Nat.mod_eq_of_lt hlen]
    · rw [hdrU16_of_length, tag_or_length, setWidth_ofNat_of_lt hlen]
  · refine ⟨_, execHdrFrom16_eq v s, ?_⟩
    have hexec (h : Header) : exec (.hdrRender16 h) s = ret (.word (hdrU16 h)) s := rfl
    rw [hexec, hdrU16_wordHeader, ret_eq]

/-- The record that `LRCM_NEW` makes of a length of eleven bits holds that length. -/
theorem lrcmMade_of_toNat_eq {len : U16} {l : U11} (more circ : Bool) (hl : len.toNat = l.toNat) :
    lrcmMade more circ len = { more := more, circ := circ, reserved := 0, len := l } := by
  have hlen : len.extractLsb' 0 11 = l := by
    apply BitVec.eq_of_toNat_eq
    rw [BitVec.extractLsb'_toNat, Nat.shiftRight_zero, hl, Nat.mod_eq_of_lt l.isLt]
  rw [lrcmMade, hlen]

/-- Settles O20, by the two sides of the limit and the two policies. -/
theorem lrcmNewKeepsItsOperands : Obligations.LrcmNewKeepsItsOperands := by
  refine fun more circ len s => ⟨fun l hl => ?_, execLrcmNew_of_ge_reject more circ,
    execLrcmNew_of_ge_mask more circ⟩
  rw [← lrcmMade_of_toNat_eq more circ hl]
  exact execLrcmNew_of_lt more circ s (hl ▸ l.isLt)

theorem lrcmU16_wordLrcm (v : U16) : lrcmU16 (Decode.wordLrcm v) = v :=
  (lrcmU16_eq_append _).trans (Decode.lrcmWord_wordLrcm v)

theorem lrcmOfU16_lrcmU16 (l : Lrcm) : lrcmOfU16 (lrcmU16 l) = l := by
  rw [lrcmOfU16_eq_wordLrcm, lrcmU16_eq_append]
  exact Decode.wordLrcm_lrcmWord l

/-- Settles O23: `lrcmU16` and `lrcmOfU16` undo each other, and the four words of the flags are
evaluated. -/
theorem lrcmRoundTrips : Obligations.LrcmRoundTrips := by
  have hfrom (v : U16) (s : State) : exec (.lrcmFrom16 v) s = ret (.lrcm (lrcmOfU16 v)) s := rfl
  have hrender (l : Lrcm) (s : State) : exec (.lrcmRender16 l) s = ret (.word (lrcmU16 l)) s := rfl
  refine fun s => ⟨fun more circ len hlen => ?_, fun v => ?_, fun more circ => ?_⟩
  · refine ⟨lrcmMade more circ len, _, execLrcmNew_of_lt more circ s hlen, ret_eq _ s, ?_, rfl, rfl,
      rfl, ?_⟩
    · rw [hfrom, lrcmOfU16_lrcmU16, ret_eq]
    · simp [lrcmMade, Nat.mod_eq_of_lt hlen]
  · refine ⟨Decode.wordLrcm v, ?_, ?_⟩
    · rw [hfrom, lrcmOfU16_eq_wordLrcm, ret_eq]
    · rw [hrender, lrcmU16_wordLrcm, ret_eq]
  · refine ⟨_, execLrcmNew_of_lt more circ s (by decide), ?_⟩
    rw [hrender, ret_eq]
    cases more <;> cases circ <;> rfl

end Sys2Proof.Proofs
end

section
/-! Generic bit fields (spec/40_bitfield.md): the two round-trip laws. -/

namespace Sys2Proof.Proofs
open Sys2Proof.Machine

/-- Settles O36, by `bfUnpack_bfPack`. -/
theorem unpackUndoesPack : Obligations.UnpackUndoesPack :=
  fun _ _ _ => bfUnpack_bfPack

/-- A field put back to where it was extracted gives the word's bits at the field. -/
theorem putField_getField {n : Nat} (f : Field) (v : BitVec n) :
    putField n f (getField f v) = v &&& putField n f (2 ^ f.width - 1) := by
  apply BitVec.eq_of_getLsbD_eq
  intro j hj
  rw [BitVec.getLsbD_and, getLsbD_putField, getLsbD_putField, testBit_getField,
    Nat.testBit_two_pow_sub_one]
  by_cases hlo : f.lo ≤ j
  · rw [Nat.add_sub_cancel' hlo]
    by_cases hw : j - f.lo < f.width <;> simp [hj, hlo, hw]
  · simp [hlo]

/-- Packing an unpacked word gives the word's assigned bits (rule R105): each field gives
its own. -/
theorem bfPack_bfUnpack {n : Nat} (F : Format) (v : BitVec n) :
    bfPack n F (bfUnpack F v) = v &&& bfAssigned n F := by
  induction F with
  | nil => exact BitVec.and_zero.symm
  | cons f F ih =>
    calc bfPack n (f :: F) (bfUnpack (f :: F) v)
      _ = putField n f (getField f v) ||| bfPack n F (bfUnpack F v) := rfl
      _ = v &&& bfAssigned n (f :: F) := by
        rw [putField_getField, ih, ← BitVec.and_or_distrib_left, ← bfAssigned]

/-- A word is its bits under a mask exactly if it has none outside the mask. -/
theorem and_eq_self_iff {n : Nat} (v mask : BitVec n) : v &&& mask = v ↔ v &&& ~~~ mask = 0 := by
  constructor
  · intro h
    rw [← h, BitVec.and_assoc, BitVec.and_not_self]
    exact BitVec.and_zero
  · intro h
    calc v &&& mask
      _ = v &&& mask ||| v &&& ~~~ mask := by rw [h]; exact BitVec.or_zero.symm
      _ = v &&& (mask ||| ~~~ mask) := BitVec.and_or_distrib_left.symm
      _ = v := by rw [BitVec.or_not_self, BitVec.and_allOnes]

/-- Settles O37, by `bfPack_bfUnpack`, which asks nothing of the format. -/
theorem packAfterUnpackKeepsTheAssignedBits : Obligations.PackAfterUnpackKeepsTheAssignedBits := by
  intro n F v _
  rw [bfPack_bfUnpack]
  exact ⟨rfl, and_eq_self_iff v _⟩

end Sys2Proof.Proofs
end

section
/-! The SyncManager registers (spec/45_syncmanager.md): their words under every layout, and the
round trips under every admitted one, from the generic laws of bit fields. -/

namespace Sys2Proof.Proofs
open Sys2Proof.Machine Sys2Proof.Certificates

/-- The fields of a CtrlStatus word are the bits at the layout's positions (rule R152). -/
theorem smcsOfU16_eq (L : SmcsLayout) (v : U16) : smcsOfU16 L v =
    { bufferState := v.extractLsb' L.bufferState 2
      visibleBufferState := v.getLsbD L.visibleBufferState
      canReadIrq := v.getLsbD L.canReadIrq
      canWriteIrq := v.getLsbD L.canWriteIrq
      triggerWatchdog := v.getLsbD L.triggerWatchdog
      pdiIrq := v.getLsbD L.pdiIrq
      ecatIrq := v.getLsbD L.ecatIrq
      access := v.extractLsb' L.access 2
      opMode := v.extractLsb' L.opMode 2 } := by
  simp only [smcsOfU16, n2b_getField_flagAt, ofNat_getField_uint2At]

/-- The flags of an Enable word are the bits at the layout's positions (rule R154). -/
theorem smenOfU16_eq (L : SmenLayout) (v : U16) : smenOfU16 L v =
    { repeatAck := v.getLsbD L.repeatAck
      deactivate := v.getLsbD L.deactivate
      latchChangePdi := v.getLsbD L.latchChangePdi
      latchChangeEcat := v.getLsbD L.latchChangeEcat
      repeatRequest := v.getLsbD L.repeatRequest
      enable := v.getLsbD L.enable } := by
  simp only [smenOfU16, n2b_getField_flagAt]

/-- Settles O38: the two words are the fields at their places (`smcsU16_eq`, `smenU16_eq`). -/
theorem syncManagerRegistersPack : Obligations.SyncManagerRegistersPack := by
  intro c e s
  have hsmcs : exec (.smcsEnc c) s = ret (.word (smcsU16 s.params.smcsLayout c)) s := rfl
  have hsmen : exec (.smenEnc e) s = ret (.word (smenU16 s.params.smenLayout e)) s := rfl
  simp only [BitVec.or_assoc]
  rw [hsmcs, hsmen, smcsU16_eq, smenU16_eq]
  exact ⟨rfl, rfl⟩

/-- Settles O39, by `smcsOfU16_eq` and `smenOfU16_eq`. -/
theorem syncManagerRegistersUnpack : Obligations.SyncManagerRegistersUnpack := by
  intro v s
  rw [← smcsOfU16_eq, ← smenOfU16_eq]
  exact ⟨ret_eq _ s, ret_eq _ s⟩

theorem b2n_inj {a b : Bool} : b2n a = b2n b ↔ a = b := by cases a <;> cases b <;> decide

theorem b2n_lt (b : Bool) : b2n b < 2 := by cases b <;> decide

/-- A flag's bit is the flag's value: one bit holds no more than 0 and 1. -/
theorem b2n_n2b_getField_flagAt (name : String) (k : Nat) {n : Nat} (v : BitVec n) :
    b2n (n2b (getField (flagAt name k) v)) = getField (flagAt name k) v := by
  have hlt := getField_lt (flagAt name k) v
  simp only [flagAt, Field.width, Nat.sub_self, Nat.zero_add, Nat.pow_one] at hlt ⊢
  generalize getField _ v = x at *
  interval_cases x <;> rfl

theorem toNat_ofNat_getField_uint2At (name : String) (k : Nat) {n : Nat} (v : BitVec n) :
    (BitVec.ofNat 2 (getField (uint2At name k) v)).toNat = getField (uint2At name k) v := by
  have hlt := getField_lt (uint2At name k) v
  have hw : (uint2At name k).width = 2 := by simp [uint2At, Field.width]
  rw [hw] at hlt
  rw [BitVec.toNat_ofNat, Nat.mod_eq_of_lt hlt]

/-- The record of a CtrlStatus word holds the unpacked values. -/
theorem smcsValues_smcsOfU16 (L : SmcsLayout) (v : U16) :
    smcsValues (smcsOfU16 L v) = bfUnpack (fSmcs L) v := by
  simp only [smcsValues, smcsOfU16, b2n_n2b_getField_flagAt, toNat_ofNat_getField_uint2At]
  rfl

theorem smenValues_smenOfU16 (L : SmenLayout) (v : U16) :
    smenValues (smenOfU16 L v) = bfUnpack (fSmen L) v := by
  simp only [smenValues, smenOfU16, b2n_n2b_getField_flagAt]
  rfl

/-- A CtrlStatus is determined by its values. -/
theorem smcsValues_injective {c c' : SmCtrlStatus} (h : smcsValues c = smcsValues c') : c = c' := by
  simp only [smcsValues, List.cons.injEq, BitVec.toNat_inj, b2n_inj, and_true] at h
  cases c
  cases c'
  rw [SmCtrlStatus.mk.injEq]
  exact h

theorem smenValues_injective {e e' : SmEnable} (h : smenValues e = smenValues e') : e = e' := by
  simp only [smenValues, List.cons.injEq, b2n_inj, and_true] at h
  cases e
  cases e'
  rw [SmEnable.mk.injEq]
  exact h

/-- Every value of a CtrlStatus fits its field. -/
theorem smcsValues_fit (L : SmcsLayout) (c : SmCtrlStatus) :
    List.Forall₂ (fun f x => x < 2 ^ f.width) (fSmcs L) (smcsValues c) := by
  simp only [fSmcs, smcsValues, flagAt, uint2At, Field.width, List.forall₂_cons, Nat.sub_self,
    Nat.add_sub_cancel_left, b2n_lt, BitVec.isLt, Nat.reduceAdd, Nat.pow_one, true_and,
    List.Forall₂.nil]

theorem smenValues_fit (L : SmenLayout) (e : SmEnable) :
    List.Forall₂ (fun f x => x < 2 ^ f.width) (fSmen L) (smenValues e) := by
  simp only [fSmen, smenValues, flagAt, Field.width, List.forall₂_cons, Nat.sub_self, b2n_lt,
    Nat.reduceAdd, Nat.pow_one, true_and, List.Forall₂.nil]

/-- Under an admitted layout decoding an encoded CtrlStatus gives it back (rule R157). -/
theorem smcsOfU16_smcsU16 {L : SmcsLayout} (hL : L.Wf) (c : SmCtrlStatus) :
    smcsOfU16 L (smcsU16 L c) = c :=
  smcsValues_injective
    ((smcsValues_smcsOfU16 L _).trans (bfUnpack_bfPack hL.1 (smcsValues_fit L c)))

theorem smenOfU16_smenU16 {L : SmenLayout} (hL : L.Wf) (e : SmEnable) :
    smenOfU16 L (smenU16 L e) = e :=
  smenValues_injective
    ((smenValues_smenOfU16 L _).trans (bfUnpack_bfPack hL.1 (smenValues_fit L e)))

/-- Encoding a decoded CtrlStatus word gives its assigned bits (rule R157). -/
theorem smcsU16_smcsOfU16 (L : SmcsLayout) (v : U16) :
    smcsU16 L (smcsOfU16 L v) = v &&& bfAssigned 16 (fSmcs L) := by
  rw [smcsU16, smcsValues_smcsOfU16, bfPack_bfUnpack]

theorem smenU16_smenOfU16 (L : SmenLayout) (v : U16) :
    smenU16 L (smenOfU16 L v) = v &&& bfAssigned 16 (fSmen L) := by
  rw [smenU16, smenValues_smenOfU16, bfPack_bfUnpack]

/-- Settles O40: a flag's bit of an encoded word is the flag of the decoded record
(`smcsOfU16_eq`), which is the record encoded (`smcsOfU16_smcsU16`); Enable likewise. -/
theorem everyFlagHasItsOwnBit : Obligations.EveryFlagHasItsOwnBit := by
  intro c e s ⟨hsmcs, hsmen⟩
  have hc := smcsOfU16_smcsU16 hsmcs c
  have he := smenOfU16_smenU16 hsmen e
  rw [smcsOfU16_eq] at hc
  rw [smenOfU16_eq] at he
  exact ⟨_, _, ret_eq _ s, ret_eq _ s, congrArg SmCtrlStatus.visibleBufferState hc,
    congrArg SmCtrlStatus.canReadIrq hc, congrArg SmCtrlStatus.canWriteIrq hc,
    congrArg SmCtrlStatus.triggerWatchdog hc, congrArg SmCtrlStatus.pdiIrq hc,
    congrArg SmCtrlStatus.ecatIrq hc, bfPack_and_not_bfAssigned 16 _ _,
    congrArg SmEnable.repeatAck he, congrArg SmEnable.deactivate he,
    congrArg SmEnable.latchChangePdi he, congrArg SmEnable.latchChangeEcat he,
    congrArg SmEnable.repeatRequest he, congrArg SmEnable.enable he,
    bfPack_and_not_bfAssigned 16 _ _⟩

/-- Settles O41: each coder undoes the other up to the unassigned bits, and an admitted layout
assigns every bit of `0x3A56`. -/
theorem syncManagerRegistersRoundTrip : Obligations.SyncManagerRegistersRoundTrip := by
  intro s ⟨hsmcs, hsmen⟩
  have hsmcsEnc (c : SmCtrlStatus) :
      exec (.smcsEnc c) s = ret (.word (smcsU16 s.params.smcsLayout c)) s := rfl
  have hsmcsDec (v : U16) :
      exec (.smcsDec v) s = ret (.ctrlStatus (smcsOfU16 s.params.smcsLayout v)) s := rfl
  have hsmenEnc (e : SmEnable) :
      exec (.smenEnc e) s = ret (.word (smenU16 s.params.smenLayout e)) s := rfl
  have hsmenDec (v : U16) :
      exec (.smenDec v) s = ret (.enable (smenOfU16 s.params.smenLayout v)) s := rfl
  refine ⟨fun c => ⟨_, hsmcsEnc c, ?_⟩, fun e => ⟨_, hsmenEnc e, ?_⟩, fun v => ⟨_, hsmcsDec v, ?_⟩,
    fun v => ⟨_, hsmenDec v, ?_⟩, _, hsmcsDec 0x3A56, ?_⟩
  · rw [hsmcsDec, smcsOfU16_smcsU16 hsmcs, ret_eq]
  · rw [hsmenDec, smenOfU16_smenU16 hsmen, ret_eq]
  · rw [hsmcsEnc, smcsU16_smcsOfU16, ret_eq]
  · rw [hsmenEnc, smenU16_smenOfU16, ret_eq]
  · obtain ⟨-, -, hpattern⟩ := hsmcs
    have hsurvives : smcsU16 s.params.smcsLayout (smcsOfU16 s.params.smcsLayout 0x3A56) = 0x3A56 :=
      (smcsU16_smcsOfU16 _ _).trans ((and_eq_self_iff _ _).2 hpattern)
    rw [hsmcsEnc, hsurvives, ret_eq]

/-- Settles O42: the layouts and formats are fixed, and each claim about them is evaluated. -/
theorem defaultLayoutsAreAdmitted : Obligations.DefaultLayoutsAreAdmitted := by
  unfold Obligations.DefaultLayoutsAreAdmitted
  decide

end Sys2Proof.Proofs
end

section
/-! The FMMU record, the structured payloads and the register rows (spec/46_fmmu.md,
spec/47_payload.md, spec/30_encoding.md): their bytes and words. -/

namespace Sys2Proof.Proofs
open Sys2Proof.Machine Sys2Proof.Certificates

/-- The two flag bytes are those of the opcode table's rows (rule R68). -/
theorem fmmuCaps_eq_capsByte (write read : Bool) :
    fmmuCaps write read = Decode.capsByte write read := by cases write <;> cases read <;> rfl

theorem fmmuActv_eq_actvByte (active : Bool) : fmmuActv active = Decode.actvByte active := by
  cases active <;> rfl

/-- The rendered record is laid out as the record is on the request port (rule R68). -/
theorem fmmuBytes_eq_putFmmu (f : Fmmu) : fmmuBytes f = Decode.putFmmu f := by
  rw [fmmuBytes, fmmuCaps_eq_capsByte, fmmuActv_eq_actvByte, Decode.putFmmu]
  simp only [List.append_assoc, List.cons_append, List.nil_append]

/-- The capability byte has write at bit 1 and read at bit 0 (rule R160). -/
theorem fmmuCaps_eq (write read : Bool) : fmmuCaps write read =
    match write, read with
      | false, false => 0x00 | false, true => 0x01 | true, false => 0x02 | true, true => 0x03 := by
  cases write <;> cases read <;> rfl

/-- The activation byte has active at bit 0 (rule R160). -/
theorem fmmuActv_eq (active : Bool) : fmmuActv active = if active then 0x01 else 0x00 := by
  cases active <;> rfl

/-- Settles O44: the operation answers `fmmuBytes`, and the two flag bytes are `fmmuCaps_eq` and
`fmmuActv_eq`. -/
theorem fmmuRenderThirteenBytes : Obligations.FmmuRenderThirteenBytes := by
  intro f s
  have hexec : exec (.fmmuRender f) s = ret (.bytes (fmmuBytes f)) s := rfl
  rw [hexec, fmmuBytes, fmmuCaps_eq, fmmuActv_eq]
  rfl

/-- The reader of FMMU records takes a record's bytes back to the record, so no two records have
the same bytes. -/
theorem fmmuBytes_injective {f g : Fmmu} (h : fmmuBytes f = fmmuBytes g) : f = g := by
  rw [fmmuBytes_eq_putFmmu, fmmuBytes_eq_putFmmu] at h
  have hf := Decode.takeFmmu_put f []
  rw [h, Decode.takeFmmu_put g []] at hf
  cases hf
  rfl

/-- Two answers with a result in the same state are the same answer only if the results are. -/
theorem ret_inj {r q : Result} {s : State} (h : ret r s = ret q s) : r = q := by
  have hresponse := congrArg State.response (Host.Outcome.next.inj h)
  cases hresponse
  rfl

/-- Settles O45: both answers are the records' bytes, which are different for different records
(`fmmuBytes_injective`). -/
theorem fmmuRenderIsInjective : Obligations.FmmuRenderIsInjective := by
  intro f g s h
  have hresult : Result.bytes (fmmuBytes f) = .bytes (fmmuBytes g) := ret_inj (s := s) h
  exact fmmuBytes_injective (Result.bytes.inj hresult)

/-- A render operation that answers bytes answers the payload's own, and the payload is admitted. -/
theorem payloadBytes_of_exec {pl : Payload} {b : Bytes} {s : State}
    (h : exec (payloadRenderOp pl) s = ret (.bytes b) s) :
    payloadBytes s.params pl = b ∧ pl.fits s.params = true := by
  cases pl with
  | raw b' =>
    cases hf : (Payload.raw b').fits s.params with
    | true =>
      have hret : ret (.bytes b') s = ret (.bytes b) s := (execRawRender_of_fits hf).symm.trans h
      exact ⟨Result.bytes.inj (ret_inj hret), rfl⟩
    | false =>
      obtain ⟨n, hn⟩ := withPayload_of_not_fits hf
      cases (hn (ret (.bytes b') s)).symm.trans h
  | sm m =>
    have hret : ret (.bytes (smBytes s.params m)) s = ret (.bytes b) s := h
    exact ⟨Result.bytes.inj (ret_inj hret), rfl⟩
  | fmmu f =>
    have hret : ret (.bytes (fmmuBytes f)) s = ret (.bytes b) s := h
    exact ⟨Result.bytes.inj (ret_inj hret), rfl⟩

/-- Admitted datagrams with the same bytes are appended with the same response and header, to
frames that render to the same bytes. -/
theorem appendFitting_of_dgBytes_eq {d d' : Datagram} {s : State}
    (h : dgBytes s.params d' = dgBytes s.params d) :
    ∃ t t', appendFitting d s = .next t ∧ appendFitting d' s = .next t' ∧
      t.response = t'.response ∧ t.fh = t'.fh ∧ frameBytes t = frameBytes t' := by
  have hlen : dgLen s.params d' = dgLen s.params d := congrArg List.length h
  rw [appendFitting, appendFitting, hlen]
  cases headerWithLength (dgLen s.params d + s.fh.length.toNat) with
  | none => exact ⟨_, _, rfl, rfl, rfl, rfl, rfl⟩
  | some made => exact ⟨_, _, rfl, rfl, rfl, rfl, by simp [frameBytes, h]⟩

/-- Settles O47: the bytes answered are the payload's (`payloadBytes_of_exec`), and neither
rendering nor appending sees more of an admitted payload than its bytes. -/
theorem structuredPayloadsAreTheirBytes : Obligations.StructuredPayloadsAreTheirBytes := by
  intro d b s h
  obtain ⟨hb, hfits⟩ := payloadBytes_of_exec h
  have hbytes : dgBytes s.params { d with payload := .raw b } = dgBytes s.params d := by
    rw [← hb]
    rfl
  refine ⟨hbytes, congrArg List.length hbytes, fun hraw => ⟨?_, ?_⟩⟩
  · calc exec (.dgRender { d with payload := .raw b }) s
      _ = ret (.bytes (dgBytes s.params { d with payload := .raw b })) s :=
        renderDatagram_of_fits hraw
      _ = exec (.dgRender d) s := by
        rw [hbytes]
        exact (renderDatagram_of_fits hfits).symm
  · obtain ⟨t, t', ht, ht', hresponse, hfh, hframe⟩ := appendFitting_of_dgBytes_eq hbytes
    exact ⟨t, t', (withPayload_fits _ hfits).trans ht, (withPayload_fits _ hraw).trans ht',
      hresponse, hfh, _, _, rfl, rfl, congrArg (fun b => some (Response.ok (.bytes b))) hframe⟩

/-- Settles O48: the rows of the registers that have an operation of their own answer as it does
(O22 and O38; the default layouts' lowest fields stand at bit 0), and the others the header's word
and the two FMMU flag bytes. -/
theorem registerRowsPackTheirFields : Obligations.RegisterRowsPackTheirFields := by
  refine fun s => ⟨fun len => ?_, fun l => lrcmRender16PacksTheFields l s, fun c hL => ?_,
    fun _ => rfl, fun e hL => ?_, fun _ => rfl, fun write read => ?_, fun active => ?_⟩
  · rw [← hdrU16_of_length]
    rfl
  · have hexec : exec (.regSmcs c) s = ret (.word (smcsU16 s.params.smcsLayout c)) s := rfl
    have hlowest : c.opMode.setWidth 16 <<< smcsLayoutDefault.opMode = c.opMode.setWidth 16 :=
      BitVec.shiftLeft_zero _
    simp only [BitVec.or_assoc]
    rw [hexec, hL, smcsU16_eq, hlowest]
    rfl
  · have hexec : exec (.regSmen e) s = ret (.word (smenU16 s.params.smenLayout e)) s := rfl
    simp only [BitVec.or_assoc]
    rw [hexec, hL, smenU16_eq]
    rfl
  · have hexec : exec (.regFmmuCaps write read) s = ret (.byte (fmmuCaps write read)) s := rfl
    rw [hexec, fmmuCaps_eq]
    rfl
  · have hexec : exec (.regFmmuActv active) s = ret (.byte (fmmuActv active)) s := rfl
    rw [hexec, fmmuActv_eq]
    rfl

end Sys2Proof.Proofs
end

section
/-! Datagrams (spec/43_datagram.md): their length, and the command rows (log 2). -/

namespace Sys2Proof.Proofs
open Sys2Proof.Machine Sys2Proof.Certificates

/-- Settles O25: the length is `dgLen_eq` at each kind of payload, and `DG_LEN` counts the bytes
that an admitted datagram renders to. -/
theorem datagramLength : Obligations.DatagramLength := by
  intro d s
  refine ⟨dgLen_eq _ d, fun b hb => ?_, fun m hm => ?_, fun f hf => ?_, fun hfits => ?_⟩
  · rw [dgLen_eq, hb, payloadBytes]
  · rw [dgLen_eq, hm, payloadBytes, length_smBytes]
  · rw [dgLen_eq, hf, payloadBytes, length_fmmuBytes]
  · have hexec : exec (.dgRender d) s = ret (.bytes (dgBytes s.params d)) s :=
      renderDatagram_of_fits hfits
    rw [dgLenOp, hexec]
    rfl

/-- The rows of the table are the named commands, each with its code (rule R70). -/
theorem commandRows_eq : commandRows =
    [.nop, .aprd, .apwr, .aprw, .fprd, .fpwr, .fprw, .brd, .bwr, .brw, .lrd, .lwr, .lrw, .armw,
      .frmw].map fun c => (Decode.commandInstr c, commandCode c) := rfl

/-- A command row's meaning is the rendering of the datagram with the command's code. -/
theorem exec_commandInstr (c : Command) (b : DatagramBody) (s : State) :
    exec (Decode.commandInstr c b) s = exec (.dgRender (datagramOf (commandCode c) b)) s := by
  cases c <;> rfl

/-- Settles O27: a row is a datagram with the row's code (`exec_commandInstr`), whose bytes O24
gives. -/
theorem commandRowsRenderTheirCode : Obligations.CommandRowsRenderTheirCode := by
  intro row hrow b s hfits
  rw [commandRows_eq] at hrow
  obtain ⟨c, -, rfl⟩ := List.mem_map.1 hrow
  exact (exec_commandInstr c b s).trans (datagramRenderByteByByte (commandCode c) b s hfits)

end Sys2Proof.Proofs
end

section
/-! The whole frame (spec/44_frame.md): the layout of the rendered frame, the full store, and
`FRAME_BUILD` (rule R83). -/

namespace Sys2Proof.Proofs
open Sys2Proof.Machine Sys2Proof.Certificates

/-- The rendered frame is two bytes and the stored datagrams' (rule R146). -/
theorem length_frameBytes (s : State) : (frameBytes s).length = 2 + storedLength s := by
  rw [frameBytes, List.length_append, List.length_flatten, List.map_map]
  rfl

/-- The upper header byte of a frame that the block makes: the tag's bit over the length's high
bits. -/
theorem upperHeaderByte_eq (x : U3) :
    ((1#4 ++ 0#1 : BitVec 5) ++ x : U8) = 0x10 ||| x.setWidth 8 := by
  decide +revert

/-- The bytes of stored datagram `k` begin where the lengths before it sum to (rule R41). -/
theorem take_drop_frameBytes {s : State} {k : Nat} {d : Datagram} (h : s.dgs[k]? = some d) :
    ((frameBytes s).drop (2 + ((s.dgs.take k).map (dgLen s.params)).sum)).take (dgLen s.params d) =
      dgBytes s.params d := by
  obtain ⟨hk, rfl⟩ := List.getElem?_eq_some_iff.1 h
  have hlengths : (s.dgs.take k).map (dgLen s.params) =
      ((s.dgs.map (dgBytes s.params)).map List.length).take k := by
    rw [List.map_map, ← List.map_take]
    rfl
  have hdrop : (frameBytes s).drop (2 + ((s.dgs.take k).map (dgLen s.params)).sum) =
      ((s.dgs.map (dgBytes s.params)).drop k).flatten := by
    rw [hlengths, ← List.drop_sum_flatten, Nat.add_comm]
    rfl
  rw [hdrop, ← List.map_drop, List.drop_eq_getElem_cons hk, List.map_cons, List.flatten_cons]
  exact List.take_left

/-- Settles O31: the answer is `frameBytes`, two header bytes (`frameBytes_eq`) and the datagrams at
their offsets (`take_drop_frameBytes`); the header's word is packed from the stored length. -/
theorem renderedFrameLayout : Obligations.RenderedFrameLayout := by
  rintro s ⟨htype, hreserved, hlength, -⟩
  refine ⟨frameBytes s, ret_eq _ s, (length_frameBytes s).trans (by rw [hlength]),
    ⟨_, _, _, frameBytes_eq s, rfl, ?_, ?_⟩, fun k d => take_drop_frameBytes⟩
  · rw [htype, hreserved]
    exact upperHeaderByte_eq _
  · have hexec (v : U16) : exec (.hdrLen v) s = ret (.length (v.extractLsb' 0 11)) s :=
      execHdrLen_eq v s
    rw [← hdrU16_eq_bytes, hexec, extractLsb'_hdrU16, ret_eq]

/-- Settles O32: 170 datagrams take 2040 bytes at least (`twelve_mul_length_le_storedLength`), so
twelve more reach the limit and no append is accepted. -/
theorem theStoreIsNeverFoundFull : Obligations.TheStoreIsNeverFoundFull := by
  rintro s d ⟨-, -, hlength, -⟩ hfull
  have hstored := twelve_mul_length_le_storedLength s
  have hd := dgLen_eq s.params d
  rcases execFrameAppend_cases d s with ⟨-, b, -, he⟩ | ⟨-, -, he⟩ | ⟨-, hlt, -⟩
  · exact ⟨_, _, he, .inr rfl⟩
  · exact ⟨_, _, he, .inl rfl⟩
  · omega

/-- The state `s` with the frame of length `l` that holds `ds`, as `FRAME_NEW` and an accepted
`FRAME_APPEND` leave it. -/
def builtFrame (s : State) (l : U11) (ds : List Datagram) : State :=
  (s.setFrame { type := 1, reserved := 0, length := l } ds).respond (.ok .nothing)

/-- The frame that was built is rendered as its length and its datagrams (rule R145). -/
theorem frameBytes_builtFrame (s : State) (l : U11) (ds : List Datagram) :
    frameBytes (builtFrame s l ds) = l.extractLsb' 0 8 :: (2#5 ++ l.extractLsb' 8 3) ::
      ds.flatMap fun d => d.command :: wireAfterCommand s.params (Decode.bodyOf d) := by
  have hfixed : 2#5 = (1 : U4) ++ (0 : U1) := rfl
  rw [hfixed]
  exact frameBytes_eq (builtFrame s l ds)

/-- An accepted append goes on to the operations after it. -/
theorem runOps_frameAppend {s : State} {k l : U11} {ds : List Datagram} {d : Datagram}
    (hf : d.payload.fits s.params = true) (hl : dgLen s.params d + k.toNat = l.toNat)
    (is : List Instr) :
    runOps (.frameAppend d :: is) (builtFrame s k ds) = runOps is (builtFrame s l (ds ++ [d])) := by
  have hexec : exec (.frameAppend d) (builtFrame s k ds) = .next (builtFrame s l (ds ++ [d])) :=
    execFrameAppend_of_lt (s := builtFrame s k ds) hf hl
  rw [runOps, hexec]
  rfl

/-- Appends whose lengths sum to less than 2048 with the frame's are all accepted. -/
theorem runOps_frameAppends {s : State} {xs : List Datagram}
    (hf : ∀ x ∈ xs, x.payload.fits s.params = true) {k l : U11} (ds : List Datagram)
    (hl : (xs.map (dgLen s.params)).sum + k.toNat = l.toNat) (is : List Instr) :
    runOps (xs.map .frameAppend ++ is) (builtFrame s k ds) =
      runOps is (builtFrame s l (ds ++ xs)) := by
  induction xs generalizing k ds with
  | nil =>
    rw [List.map_nil, List.sum_nil, Nat.zero_add, BitVec.toNat_inj] at hl
    rw [hl, List.append_nil]
    rfl
  | cons x xs ih =>
    obtain ⟨hx, hf⟩ := List.forall_mem_cons.1 hf
    rw [List.map_cons, List.sum_cons] at hl
    have hlt : l.toNat < 2048 := l.isLt
    have hm : dgLen s.params x + k.toNat =
        (BitVec.ofNat 11 (dgLen s.params x + k.toNat)).toNat := by
      rw [BitVec.toNat_ofNat, Nat.mod_eq_of_lt (by omega)]
    rw [List.map_cons, List.cons_append, runOps_frameAppend hx hm, ih hf _ (by omega),
      List.append_assoc]
    rfl

/-- `FRAME_BUILD` runs, on the frame of its first datagrams, what comes after their appends. -/
theorem frameBuild_append {s : State} {ds : List Datagram}
    (hf : ∀ d ∈ ds, d.payload.fits s.params = true) {l : U11}
    (hl : (ds.map (dgLen s.params)).sum = l.toNat) (rest : List Datagram) :
    frameBuild (ds ++ rest) s =
      runOps (rest.map .frameAppend ++ [.frameRender]) (builtFrame s l ds) := by
  rw [frameBuild, List.map_append, List.append_assoc]
  exact runOps_frameAppends hf (k := 0) [] hl _

/-- Settles O33: all appends are accepted (`frameBuild_append`), and the frame they build is
rendered (`frameBytes_builtFrame`). -/
theorem frameBuildYieldsTheWholeFrame : Obligations.FrameBuildYieldsTheWholeFrame := by
  intro ds s l hf hl
  have hbuild := frameBuild_append hf hl []
  rw [List.append_nil] at hbuild
  calc frameBuild ds s
    _ = ret (.bytes (frameBytes (builtFrame s l ds))) (builtFrame s l ds) := hbuild
    _ = _ := by
      rw [frameBytes_builtFrame]
      rfl

/-- A refused operation is the last one of a sequence (rule R83). -/
theorem runOps_of_raise {i : Instr} {s : State} {c : Cause} {n : Nat}
    (h : exec i s = raise c n s) (is : List Instr) : runOps (i :: is) s = raise c n s := by
  rw [runOps, h]
  rfl

/-- Settles O34: the datagrams before are appended (`frameBuild_append`), and the append of `d` is
refused on either ground, which ends the sequence (`runOps_of_raise`). -/
theorem frameBuildStopsAtTheFirstRefusal : Obligations.FrameBuildStopsAtTheFirstRefusal := by
  intro ds rest d s l hf hl
  rw [frameBuild_append hf hl (d :: rest), List.map_cons, List.cons_append]
  refine ⟨fun hfits hge => ?_, fun b m hb hm hlt => ?_⟩
  · have hlong := execFrameAppend_of_ge (s := builtFrame s l ds) hfits hge
    exact runOps_of_raise (i := .frameAppend d) hlong _
  · have hlong := withPayload_of_too_long (s := builtFrame s l ds) hm hlt
      (appendFitting d (builtFrame s l ds))
    rw [← hb] at hlong
    exact runOps_of_raise (i := .frameAppend d) hlong _

end Sys2Proof.Proofs
end
